-- ==== Sys2Proof/Word.lean ====
section
/-! DEFINITION. The value types of 00_scope.md rule R6: nibbles, bytes, rows, byte sequences and the bitmap. -/

namespace Sys2Proof

/-- `Nib` of rule R6: 4 bits. -/
abbrev Nib := BitVec 4

/-- `Byte` of rule R6: 8 bits. Text is a sequence of bytes (rule R7). -/
abbrev Byte := BitVec 8

/-- `Row` of rule R6: 32 bits, column `x` in bit `x`. Also the word of a 4-byte host access. -/
abbrev Row := BitVec 32

/-- `Bytes` of rule R6: a finite sequence of bytes. -/
abbrev Bytes := List Byte

/-- `Bitmap` of rule R6: 16 rows, row 0 the top one. The dimensions never change (10_state.md rule R12). -/
abbrev Bitmap := Vector Row 16

end Sys2Proof
end

