-- ==== Sys2Proof/Syntax.lean ====
section
/-! DEFINITION. The commands of LEDCODEC: one constructor per row of spec/opcode_table.json (30_encoding.md rule R52). -/

namespace Sys2Proof

/-- A command with its four option bits SP, RN, IB, ZP as they stand in the command word (30_encoding.md rules R50,
R56). A command may carry an option bit that it does not use: such a word is a redundant spelling, neither illegal nor
reserved (rule R53). DESIGN CHOICE (log 10), safe: the unused bits are kept here, so that decoding drops no bit, and it
is `Machine.exec` that does not hand them on. -/
inductive Instr where
  /-- OP 0x0, 47_system.md rule R155. -/
  | nop (sp rn ib zp : Bool)
  /-- OP 0x1, 41_frame128.md rule R92. -/
  | enc128 (sp rn ib zp : Bool)
  /-- OP 0x2, 41_frame128.md rule R94. -/
  | dec128 (sp rn ib zp : Bool)
  /-- OP 0x3, 42_frame64.md rule R102. -/
  | enc64 (sp rn ib zp : Bool)
  /-- OP 0x4, 42_frame64.md rule R104. -/
  | dec64 (sp rn ib zp : Bool)
  /-- OP 0x5, 43_tokenline.md rule R112. -/
  | enctok (sp rn ib zp : Bool)
  /-- OP 0x6, 43_tokenline.md rule R114. -/
  | dectok (sp rn ib zp : Bool)
  /-- OP 0x7, 44_legacytext.md rule R121. -/
  | encleg (sp rn ib zp : Bool)
  /-- OP 0x8, 45_legacyhex.md rule R131. -/
  | tokenize (sp rn ib zp : Bool)
  /-- OP 0x9, 45_legacyhex.md rule R133. -/
  | decauto (sp rn ib zp : Bool)
  /-- OP 0xA, 45_legacyhex.md rule R134. -/
  | classify (sp rn ib zp : Bool)
  /-- OP 0xB, 46_linehandler.md rule R146. -/
  | scanc (sp rn ib zp : Bool)
  /-- OP 0xC, 46_linehandler.md rule R147. -/
  | line (sp rn ib zp : Bool)
  /-- OP 0xD, 47_system.md rule R156. -/
  | clrin (sp rn ib zp : Bool)
  /-- OP 0xE, the unassigned opcode, 47_system.md rule R158. -/
  | illegal0E (sp rn ib zp : Bool)
  /-- OP 0xF, 47_system.md rule R157. -/
  | srst (sp rn ib zp : Bool)
deriving DecidableEq, Repr

end Sys2Proof
end

