-- ==== Sys2Proof/Decode.lean ====
section
/-! DEFINITION. Decoding and encoding the command word (30_encoding.md rules R50, R52, R55, R56). -/

namespace Sys2Proof

/-- `OP = w[3:0]` (rule R55). -/
def opField (w : Row) : Nib := w.extractLsb' 0 4

/-- `SP = w[4]` (rule R55). -/
def spField (w : Row) : Bool := w.getLsbD 4

/-- `RN = w[5]` (rule R55). -/
def rnField (w : Row) : Bool := w.getLsbD 5

/-- `IB = w[6]` (rule R55). -/
def ibField (w : Row) : Bool := w.getLsbD 6

/-- `ZP = w[7]` (rule R55). -/
def zpField (w : Row) : Bool := w.getLsbD 7

/-- The row of rule R52 that an opcode selects. All 16 opcodes select one; 0xE selects the unassigned row. -/
def instrOfOp (op : Nib) : Bool → Bool → Bool → Bool → Instr :=
  match op.toNat with
  | 0x0 => .nop
  | 0x1 => .enc128
  | 0x2 => .dec128
  | 0x3 => .enc64
  | 0x4 => .dec64
  | 0x5 => .enctok
  | 0x6 => .dectok
  | 0x7 => .encleg
  | 0x8 => .tokenize
  | 0x9 => .decauto
  | 0xA => .classify
  | 0xB => .scanc
  | 0xC => .line
  | 0xD => .clrin
  | 0xE => .illegal0E
  | _ => .srst

/-- The command started by writing the 32-bit value `w` to CMD: selected by `OP` alone, with the four option bits;
bits 31:8 are not part of it (rules R50, R55). "Every one of the 2^32 values of `w` selects exactly one row", so this
decoder rejects nothing. -/
def decode (w : Row) : Instr :=
  instrOfOp (opField w) (spField w) (rnField w) (ibField w) (zpField w)

/-- The command word of rule R56: `OP | SP<<4 | RN<<5 | IB<<6 | ZP<<7`. -/
def commandWord (op : Nib) (sp rn ib zp : Bool) : Byte :=
  op.setWidth 8 ||| ((BitVec.ofBool sp).setWidth 8 <<< 4) ||| ((BitVec.ofBool rn).setWidth 8 <<< 5)
    ||| ((BitVec.ofBool ib).setWidth 8 <<< 6) ||| ((BitVec.ofBool zp).setWidth 8 <<< 7)

/-- The command word of a command, with the opcode of rule R52. -/
def encode : Instr → Byte
  | .nop sp rn ib zp => commandWord 0x0 sp rn ib zp
  | .enc128 sp rn ib zp => commandWord 0x1 sp rn ib zp
  | .dec128 sp rn ib zp => commandWord 0x2 sp rn ib zp
  | .enc64 sp rn ib zp => commandWord 0x3 sp rn ib zp
  | .dec64 sp rn ib zp => commandWord 0x4 sp rn ib zp
  | .enctok sp rn ib zp => commandWord 0x5 sp rn ib zp
  | .dectok sp rn ib zp => commandWord 0x6 sp rn ib zp
  | .encleg sp rn ib zp => commandWord 0x7 sp rn ib zp
  | .tokenize sp rn ib zp => commandWord 0x8 sp rn ib zp
  | .decauto sp rn ib zp => commandWord 0x9 sp rn ib zp
  | .classify sp rn ib zp => commandWord 0xA sp rn ib zp
  | .scanc sp rn ib zp => commandWord 0xB sp rn ib zp
  | .line sp rn ib zp => commandWord 0xC sp rn ib zp
  | .clrin sp rn ib zp => commandWord 0xD sp rn ib zp
  | .illegal0E sp rn ib zp => commandWord 0xE sp rn ib zp
  | .srst sp rn ib zp => commandWord 0xF sp rn ib zp

/-- The 32-bit value a host writes to CMD for a command, its ignored bits 31:8 zero (rules R50, R56). -/
def cmdValue (i : Instr) : Row := (encode i).setWidth 32

/-- The instruction the decoder reads from an opcode-table row's bits. A command is the data of one 32-bit write, a
number, so there is no byte order to lay out (20_memory.md rule R33); the bits above the `nbits` of the table's row
are zero, as a natural number has them. -/
def decodeTableWord (_nbits w : Nat) : Option Instr := some (decode (BitVec.ofNat 32 w))

end Sys2Proof
end

