-- ==== Sys2Proof/Config.lean ====
section
/-! DEFINITION. The parameters of 00_scope.md rule R5. They are configuration: no command or access changes them
(10_state.md rule R22). -/

namespace Sys2Proof

/-- Which 8 digits a TokenLine token longer than 8 digits keeps (rule R5, `TRUNC_KEEP`). -/
inductive TruncKeep where
  | first
  | last
deriving DecidableEq, Repr

/-- The parameter record of rule R5 (`ROWS` = 16 and `COLS` = 32 are fixed and stand in the type `Bitmap`). -/
structure Config where
  /-- `IN_CAP`: capacity of the input buffer in bytes. -/
  inCap : Nat
  /-- `OUT_CAP`: capacity of the output buffer in bytes. -/
  outCap : Nat
  /-- `TRUNC_KEEP`: which digits a TokenLine token of more than 8 digits keeps. -/
  truncKeep : TruncKeep
  /-- `CARR_STRICT`: whether a third hex digit after `0xNN` prevents a C-array match. -/
  carrStrict : Bool
deriving DecidableEq, Repr

/-- The column "Default" of rule R5. -/
def Config.default : Config where
  inCap := 1024
  outCap := 512
  truncKeep := .first
  carrStrict := true

end Sys2Proof
end

