-- ==== Sys2Proof/Machine/Operands.lean ====
section
/-! DEFINITION. The shared pure functions of 40_common.md (rules R65 to R78): bits, bytes, characters and tokens. They
read and write no state. -/

namespace Sys2Proof.Machine

/-- The pair-swap permutation `P(j) = j ^ 1` on 0..7 (rule R65). -/
def pairSwap (j : Nat) : Nat := j ^^^ 1

/-- `perm(sp, j)` (rule R65): `P(j)` when `sp = 1` and `j` when `sp = 0`. -/
def perm (sp : Bool) (j : Nat) : Nat := if sp then pairSwap j else j

/-- `rev4` (rule R66): the four bits reversed, the result's bit 3 being `n[0]`. -/
def rev4 (n : Nib) : Nib :=
  BitVec.ofBool (n.getLsbD 0) ++ BitVec.ofBool (n.getLsbD 1) ++ BitVec.ofBool (n.getLsbD 2)
    ++ BitVec.ofBool (n.getLsbD 3)

/-- `grp(v, g) = v[4g+3 : 4g]` (rule R67): the pixels of columns `4g .. 4g+3`. -/
def grp (v : Row) (g : Nat) : Nib := v.extractLsb' (4 * g) 4

/-- `join(n0, .., n7)` (rule R67): the row whose bits `4g+3 : 4g` are `n g`. -/
def joinGroups (n : Nat → Nib) : Row := n 7 ++ n 6 ++ n 5 ++ n 4 ++ n 3 ++ n 2 ++ n 1 ++ n 0

/-- Byte `i` of a sequence, 0x00 past its end: the element rule of `fit` (rule R68) and of the windows
(20_memory.md rule R40). -/
def byteAt (b : Bytes) (i : Nat) : Byte := b.getD i 0

/-- `fit(b, N)` (rule R68): exactly `N` bytes, the first `N` of a longer `b`, zeros appended to a shorter one. -/
def fit (b : Bytes) (n : Nat) : Bytes := (List.range n).map (byteAt b)

/-- `rowbytes(v)` (rule R69): the four bytes of a row, least significant first. -/
def rowbytes (v : Row) : Bytes :=
  [v.extractLsb' 0 8, v.extractLsb' 8 8, v.extractLsb' 16 8, v.extractLsb' 24 8]

/-- `rowval(b0, b1, b2, b3)` (rule R69): each byte zero-extended to 32 bits and shifted to its place. -/
def rowval (b0 b1 b2 b3 : Byte) : Row :=
  b0.setWidth 32 ||| (b1.setWidth 32 <<< 8) ||| (b2.setWidth 32 <<< 16) ||| (b3.setWidth 32 <<< 24)

/-- `hexval(c)` (rule R71) where it is defined: on the 22 hex digits `'0'..'9'`, `'A'..'F'`, `'a'..'f'` of rule R70, in
either case; `none` on every other byte (log 12). -/
def hexval? (c : Byte) : Option Nib :=
  if 0x30 ≤ c.toNat ∧ c.toNat ≤ 0x39 then some (BitVec.ofNat 4 (c.toNat - 0x30))
  else if 0x41 ≤ c.toNat ∧ c.toNat ≤ 0x46 then some (BitVec.ofNat 4 (c.toNat - 0x41 + 10))
  else if 0x61 ≤ c.toNat ∧ c.toNat ≤ 0x66 then some (BitVec.ofNat 4 (c.toNat - 0x61 + 10))
  else none

/-- `c in HEX` (rule R70). -/
def isHex (c : Byte) : Bool := (hexval? c).isSome

/-- `c in WS` (rule R72): tab, line feed, vertical tab, form feed, carriage return, space. -/
def isWs (c : Byte) : Bool :=
  c == 0x09 || c == 0x0A || c == 0x0B || c == 0x0C || c == 0x0D || c == 0x20

/-- `hexdigit(n)` (rule R74): the upper-case digit. -/
def hexdigit (n : Nib) : Byte :=
  if n.toNat ≤ 9 then BitVec.ofNat 8 (0x30 + n.toNat) else BitVec.ofNat 8 (0x41 + n.toNat - 10)

/-- `hex2(b)` (rule R75): two digits, high nibble first. -/
def hex2 (b : Byte) : Bytes := [hexdigit (b.extractLsb' 4 4), hexdigit (b.extractLsb' 0 4)]

/-- The loop of `tokens` (rule R76): `cur` is the token read so far. -/
def tokensFrom (cur : Bytes) : Bytes → List Bytes
  | [] => if cur.isEmpty then [] else [cur]
  | c :: t =>
    if isWs c then (if cur.isEmpty then tokensFrom [] t else cur :: tokensFrom [] t)
    else tokensFrom (cur ++ [c]) t

/-- `tokens(t)` (rule R76): the maximal runs of non-whitespace bytes, in order; none is empty. -/
def tokens (t : Bytes) : List Bytes := tokensFrom [] t

/-- `strip(k)` (rule R77): the hex digits of a token, in order. -/
def strip (k : Bytes) : Bytes := k.filter isHex

/-- A token with no hex digit in it (60_exceptions.md rule R168). -/
def malformed (k : Bytes) : Bool := (strip k).isEmpty

/-- Two digit values at a time from the left, the first the high nibble; an odd last one is a byte of its own. -/
def pairNibs : List Nib → Bytes
  | a :: b :: t => (a ++ b) :: pairNibs t
  | [a] => [a.setWidth 8]
  | [] => []

/-- `pairs(s)` (rule R78), for a sequence `s` of hex digits. It is applied to stripped tokens only, all of whose bytes
have a digit value. -/
def pairs (s : Bytes) : Bytes := pairNibs (s.filterMap hexval?)

end Sys2Proof.Machine
end

