-- ==== Sys2Proof/Machine/State.lean ====
section
/-! DEFINITION. The state of LEDCODEC (10_state.md rule R23), the inputs and responses of its host port
(20_memory.md rule R31), the reasons a step can stop, and the state after reset. -/

namespace Sys2Proof.Machine

/-- The six flags of STATUS, bits 0 to 5 in this order (10_state.md rule R18). Bits 31:6 are no state, they read as
zero (`statusWord`). -/
structure Status where
  /-- Bit 0: the last command other than NOP had the unassigned opcode. -/
  err : Bool
  /-- Bit 1: the last command other than NOP decoded its bytes as Frame128. -/
  f128 : Bool
  /-- Bit 2: the last command other than NOP was SCANC or LINE and found a C-array literal. -/
  carr : Bool
  /-- Bit 3: LengthMismatch. -/
  lm : Bool
  /-- Bit 4: MalformedToken. -/
  mt : Bool
  /-- Bit 5, sticky: a pushed byte was dropped. -/
  iov : Bool
deriving DecidableEq, Repr

/-- All six flags clear. -/
def Status.clear : Status where
  err := false
  f128 := false
  carr := false
  lm := false
  mt := false
  iov := false

/-- What the outside world does to the block, one at a time (20_memory.md rule R37). Addresses are offsets from a base
that is not interpreted (rule R42); address and size are plain numbers, so that every malformed access can be written
down (log 8). -/
inductive HostInput where
  /-- `MemRead(addr, n)` of 20_memory.md rule R31. -/
  | read (addr size : Nat)
  /-- `MemWrite(addr, n, v)` of 20_memory.md rule R31. -/
  | write (addr size : Nat) (value : Row)
  /-- The reset input is driven to this level (70_reset_and_hazards.md rule R185; logs 5, 6, 7). -/
  | resetInput (asserted : Bool)
deriving DecidableEq, Repr

/-- What one host access is answered (20_memory.md rule R31): `ok`, with a value for a read, or `BusError`. -/
inductive Response where
  /-- A write completed. -/
  | ok
  /-- A 4-byte read completed with this value. -/
  | okWord (v : Row)
  /-- A 1-byte read completed with this value. -/
  | okByte (v : Byte)
  /-- The error response of rule R41: the access had no effect. -/
  | busError
deriving DecidableEq, Repr

/-- The reasons the hardware stops with a fault: NONE. "LEDCODEC never traps" (60_exceptions.md rule R165), and a
malformed access is answered `Response.busError`, after which the next access proceeds (20_memory.md rule R41). -/
inductive Fault where
deriving DecidableEq, Repr

/-- The reasons the model gives no meaning. -/
inductive Refusal where
  /-- An instruction that has no meaning yet: raised by `exec`'s refused arms only, of which there are none now. Safe:
  nothing is claimed of it. -/
  | notModelled (mnemonic : String)
  /-- A host access while the reset input is asserted: raised by `serveInput`. The spec says "no host access is
  accepted" (70_reset_and_hazards.md rule R185) and gives the case the treatment `refuse` (93_implementation_defined.md
  section 6). Safe: nothing is claimed of it (log 6). -/
  | accessDuringReset
deriving DecidableEq, Repr

/-- The state: the tuple `(BMP, IN, OUT, STATUS)` of 10_state.md rule R23, the level of the reset input, and the
model's own three fields (the parameters, the inputs still to come, the responses so far). -/
structure State where
  /-- `BMP[0..15]`, rules R11 and R12. -/
  bmp : Bitmap
  /-- `IN`, rule R15. `INLEN` is its length (rule R19). -/
  input : Bytes
  /-- `OUT`, rule R16. `OUTLEN` is its length (rule R19). -/
  output : Bytes
  /-- `STATUS`, rule R18. -/
  status : Status
  /-- The level of the reset input, true while it is asserted (70_reset_and_hazards.md rule R185). -/
  resetLine : Bool
  /-- The model's own: the parameters of 00_scope.md rule R5, which no step changes (log 3). -/
  cfg : Config
  /-- The model's own: the host's inputs still to come, oldest first (70_reset_and_hazards.md rule R195; log 1). -/
  pending : List HostInput
  /-- The model's own: the responses to the accesses so far, oldest first (rule R195; log 2). -/
  responses : List Response
deriving DecidableEq, Repr

/-- The bitmap with all 16 rows zero, which rule R23 gives for reset. -/
def blankBitmap : Bitmap := Vector.replicate 16 0

/-- The machine right after reset: the last column of the table of 10_state.md rule R23, with the default parameters
(00_scope.md rule R5), the reset input released, no access issued and none answered. -/
def State.reset : State where
  bmp := blankBitmap
  input := []
  output := []
  status := Status.clear
  resetLine := false
  cfg := Config.default
  pending := []
  responses := []

end Sys2Proof.Machine
end

