-- ==== Sys2Proof/Machine/Flags.lean ====
section
/-! DEFINITION. The STATUS register and every condition that sets one of its flags (10_state.md rule R18,
60_exceptions.md rules R166 to R169). -/

namespace Sys2Proof.Machine

/-- The value a read of STATUS returns (10_state.md rule R18): ERR, F128, CARR, LM, MT, IOV in bits 0 to 5, bits 31:6
zero. -/
def statusWord (f : Status) : Row :=
  (BitVec.ofBool f.iov ++ BitVec.ofBool f.mt ++ BitVec.ofBool f.lm ++ BitVec.ofBool f.carr ++ BitVec.ofBool f.f128
    ++ BitVec.ofBool f.err).setWidth 32

/-- The five result flags written together, IOV kept (10_state.md rule R18, 60_exceptions.md rule R173). -/
def Status.withResult (f : Status) (err f128 carr lm mt : Bool) : Status where
  err := err
  f128 := f128
  carr := carr
  lm := lm
  mt := mt
  iov := f.iov

/-- LengthMismatch of a decoder that expects exactly `want` bytes (60_exceptions.md rule R169). -/
def lmExact (want n : Nat) : Bool := n != want

/-- LengthMismatch of the classifying commands: the byte count is neither 64 nor 128 (60_exceptions.md rule R169). -/
def lmAuto (n : Nat) : Bool := n != 64 && n != 128

/-- F128 of the classifying commands: the byte count is at least 128 (45_legacyhex.md rules R132 to R134). -/
def f128Auto (n : Nat) : Bool := 128 ≤ n

/-- MalformedToken of the legacy tokenizer: some token has no hex digit (45_legacyhex.md rule R131). -/
def mtText (t : Bytes) : Bool := (tokens t).any malformed

/-- MalformedToken of DECTOK: a consumed token, one of the first 16, has no hex digit (43_tokenline.md rule R114). -/
def mtTokenLine (t : Bytes) : Bool := ((tokens t).take 16).any malformed

/-- A stripped token that had to be padded or truncated: its length is neither 0 nor 8 and it is not `"0"`
(43_tokenline.md rule R114). -/
def oddSized (s : Bytes) : Bool := s.length != 0 && s.length != 8 && s != [0x30]

/-- LengthMismatch of DECTOK: the token count is not 16 or a consumed token was padded or truncated
(43_tokenline.md rule R114). -/
def lmTokenLine (t : Bytes) : Bool :=
  (tokens t).length != 16 || ((tokens t).take 16).any (fun k => oddSized (strip k))

end Sys2Proof.Machine
end

