-- ==== Sys2Proof/Machine/Ops.lean ====
section
/-! DEFINITION. The shared operations on the state: what a command may write (10_state.md rules R13, R15, R16, R18),
reset, and the effect of the host port's reads and plain writes (10_state.md rules R14, R20).

Taking an exception: there is none to take. "Trap entry on this hardware is only the writing of the mark"
(60_exceptions.md rule R172), which is `State.setResult`; there is no return (rule R173). -/

namespace Sys2Proof.Machine

/-- The outcome of a command. -/
abbrev Result := Host.Outcome State Fault Refusal

/-- Write the five result flags, keep IOV (10_state.md rule R18). This is the one place where an event of
60_exceptions.md rule R166 leaves its mark in a command. -/
def State.setResult (s : State) (err f128 carr lm mt : Bool) : State :=
  { s with status := s.status.withResult err f128 carr lm mt }

/-- All five result flags cleared. -/
def State.clearResult (s : State) : State := s.setResult false false false false false

/-- `OUT <- o` (00_scope.md rule R8): the whole output buffer replaced. -/
def State.setOutput (s : State) (o : Bytes) : State := { s with output := o }

/-- `BMP <- b` (20_memory.md rule R35): all 16 rows replaced in one step. -/
def State.setBitmap (s : State) (b : Bitmap) : State := { s with bmp := b }

/-- Every item of 10_state.md rule R23 put to its reset value (70_reset_and_hazards.md rule R185), by SRST and by the
release of the reset input. The model's own fields are kept. -/
def State.toReset (s : State) : State :=
  { s with bmp := blankBitmap, input := [], output := [], status := Status.clear }

/-- A host write to `ROW[r]` (10_state.md rule R14): that row replaced, nothing else. -/
def State.writeRow (s : State) (r : Fin 16) (v : Row) : State := { s with bmp := s.bmp.set r v }

/-- A host write of `w` to INPUSH (10_state.md rule R20): append `w[7:0]`, or drop it and set IOV when `IN` is full. -/
def State.pushByte (s : State) (w : Row) : State :=
  if s.input.length < s.cfg.inCap then { s with input := s.input ++ [w.setWidth 8] }
  else { s with status := { s.status with iov := true } }

/-- The inputs still to come (log 1). -/
def State.withPending (s : State) (rest : List HostInput) : State := { s with pending := rest }

/-- Record what an access was answered (log 2). -/
def State.respond (s : State) (r : Response) : State := { s with responses := s.responses ++ [r] }

end Sys2Proof.Machine
end

