-- ==== Sys2Proof/Machine/Frame128.lean ====
section
/-! DEFINITION. Frame128: `F128`, `B128` and the commands ENC128 and DEC128 (41_frame128.md). -/

namespace Sys2Proof.Machine

/-- The two nibble transforms of the encoder (rule R91): bit reversal, then inversion. -/
def frameNibble (rn ib : Bool) (n : Nib) : Nib :=
  let m := if rn then rev4 n else n
  if ib then m ^^^ 0xF else m

/-- The 8 bytes of one row (rules R90, R91): byte `j` carries group `perm(sp, j)`, the high nibble is 0. Rule R65:
"byte `j` of the output is value `P(j)`" and "value `g` goes to byte `P(g)`" say the same thing. -/
def frame128Row (sp rn ib : Bool) (v : Row) : Bytes :=
  (List.range 8).map fun j => (frameNibble rn ib (grp v (perm sp j))).setWidth 8

/-- `F128(b, sp, rn, ib)` (rule R91): 128 bytes, row 0 first. -/
def f128 (b : Bitmap) (sp rn ib : Bool) : Bytes := b.toList.flatMap (frame128Row sp rn ib)

/-- `B128(s, sp)` (rule R93): group `g` of row `r` is the low nibble of byte `8r + perm(sp, g)` of `fit(s, 128)`. -/
def b128 (s : Bytes) (sp : Bool) : Bitmap :=
  let f := fit s 128
  Vector.ofFn fun r => joinGroups fun g => (byteAt f (8 * r.val + perm sp g)).extractLsb' 0 4

/-- ENC128 (rule R92). -/
def execEnc128 (sp rn ib : Bool) (s : State) : Result :=
  .next (s.setOutput (f128 s.bmp sp rn ib)).clearResult

/-- DEC128 (rule R94). -/
def execDec128 (sp : Bool) (s : State) : Result :=
  .next ((s.setBitmap (b128 s.input sp)).setResult false true false (lmExact 128 s.input.length) false)

end Sys2Proof.Machine
end

