-- ==== Sys2Proof/Machine/Frame64.lean ====
section
/-! DEFINITION. Frame64: `F64`, `B64` and the commands ENC64 and DEC64 (42_frame64.md). -/

namespace Sys2Proof.Machine

/-- `F64(b)` (rule R101): the rows' bytes, least significant first, row 0 first. -/
def f64 (b : Bitmap) : Bytes := b.toList.flatMap rowbytes

/-- `B64(s)` (rule R103): row `r` from bytes `4r .. 4r+3` of `fit(s, 64)`. -/
def b64 (s : Bytes) : Bitmap :=
  let f := fit s 64
  Vector.ofFn fun r =>
    rowval (byteAt f (4 * r.val)) (byteAt f (4 * r.val + 1)) (byteAt f (4 * r.val + 2)) (byteAt f (4 * r.val + 3))

/-- ENC64 (rule R102). -/
def execEnc64 (s : State) : Result :=
  .next (s.setOutput (f64 s.bmp)).clearResult

/-- DEC64 (rule R104). -/
def execDec64 (s : State) : Result :=
  .next ((s.setBitmap (b64 s.input)).setResult false false false (lmExact 64 s.input.length) false)

end Sys2Proof.Machine
end

