-- ==== Sys2Proof/Machine/LegacyHex.lean ====
section
/-! DEFINITION. The legacy hex parser: `TOKZ`, `AUTO` and the commands TOKENIZE, DECAUTO and CLASSIFY
(45_legacyhex.md). -/

namespace Sys2Proof.Machine

/-- `TOKZ(t)` (rule R130): each token stripped and paired on its own. A token with no hex digit adds nothing, since
`pairs([]) = []`. -/
def tokz (t : Bytes) : Bytes := (tokens t).flatMap fun k => pairs (strip k)

/-- `AUTO(y)` (rule R132): 128 bytes or more are a Frame128 with the pair-swap undone, fewer a Frame64. -/
def auto (y : Bytes) : Bitmap := if 128 ≤ y.length then b128 y true else b64 y

/-- TOKENIZE (rule R131). -/
def execTokenize (s : State) : Result :=
  .next ((s.setOutput (tokz s.input)).setResult false false false false (mtText s.input))

/-- DECAUTO (rule R133). -/
def execDecauto (s : State) : Result :=
  .next ((s.setBitmap (auto s.input)).setResult false (f128Auto s.input.length) false (lmAuto s.input.length) false)

/-- CLASSIFY (rule R134). -/
def execClassify (s : State) : Result :=
  let y := tokz s.input
  .next ((s.setBitmap (auto y)).setResult false (f128Auto y.length) false (lmAuto y.length) (mtText s.input))

end Sys2Proof.Machine
end

