-- ==== Sys2Proof/Machine/LegacyText.lean ====
section
/-! DEFINITION. LegacyStyleText: `LEGC` and the command ENCLEG (44_legacytext.md). -/

namespace Sys2Proof.Machine

/-- `cell(y)` (rule R120): one digit and a space below 0x10, else two digits. -/
def cell (y : Byte) : Bytes := if y.toNat < 0x10 then [hexdigit (y.extractLsb' 0 4), 0x20] else hex2 y

/-- `LEGC(b)` (rule R120): the cells of the 64 bytes of the Frame64. -/
def legc (b : Bitmap) : Bytes := (f64 b).flatMap cell

/-- ENCLEG (rule R121). -/
def execEncleg (s : State) : Result :=
  .next (s.setOutput (legc s.bmp)).clearResult

end Sys2Proof.Machine
end

