-- ==== Sys2Proof/Machine/LineHandler.lean ====
section
/-! DEFINITION. The line handler: `CARR`, `LINEB` and the commands SCANC and LINE (46_linehandler.md). -/

namespace Sys2Proof.Machine

/-- The byte of a C-array literal whose four bytes are `a b c d` and which `rest` follows (rule R145): `'0'`, `'x'`,
two hex digits, and under `CARR_STRICT` no hex digit after them. -/
def carrMatch (strict : Bool) (a b c d : Byte) (rest : Bytes) : Option Byte :=
  if a = 0x30 ∧ b = 0x78 ∧ (strict = false ∨ rest.head?.all (fun e => !isHex e) = true) then
    match hexval? c, hexval? d with
    | some hi, some lo => some (hi ++ lo)
    | _, _ => none
  else none

/-- The loop of `CARR` (rule R145) with `skip` bytes to pass over first: after a match the scan resumes behind it, else
one byte further, and fewer than four bytes end it. -/
def carrFrom (strict : Bool) : Nat → Bytes → Bytes
  | _, [] => []
  | skip + 1, _ :: t => carrFrom strict skip t
  | 0, a :: t =>
    match t with
    | b :: c :: d :: rest =>
      match carrMatch strict a b c d rest with
      | some y => y :: carrFrom strict 3 t
      | none => carrFrom strict 0 t
    | _ => []

/-- `CARR(t)` (rule R145): the bytes of the C-array literals from left to right. -/
def carr (strict : Bool) (t : Bytes) : Bytes := carrFrom strict 0 t

/-- `LINEB(t)` (rule R147): the C-array bytes if there is one (rule R148), else the legacy bytes. -/
def lineb (strict : Bool) (t : Bytes) : Bytes := if 1 ≤ (carr strict t).length then carr strict t else tokz t

/-- SCANC (rule R146). -/
def execScanc (s : State) : Result :=
  let c := carr s.cfg.carrStrict s.input
  .next ((s.setOutput c).setResult false false (decide (1 ≤ c.length)) false false)

/-- LINE (rule R147). -/
def execLine (s : State) : Result :=
  let c := carr s.cfg.carrStrict s.input
  let y := lineb s.cfg.carrStrict s.input
  .next ((s.setBitmap (auto y)).setResult false (f128Auto y.length) (decide (1 ≤ c.length)) (lmAuto y.length)
    (decide (c.length = 0) && mtText s.input))

end Sys2Proof.Machine
end

