-- ==== Sys2Proof/Machine/System.lean ====
section
/-! DEFINITION. The system commands NOP, CLRIN, SRST and the unassigned opcode 0xE (47_system.md). -/

namespace Sys2Proof.Machine

/-- NOP (rule R155): nothing changes, the result flags included. -/
def execNop (s : State) : Result := .next s

/-- CLRIN (rule R156): `IN` emptied, all six flags cleared. -/
def execClrin (s : State) : Result := .next { s with input := [], status := Status.clear }

/-- The unassigned opcode (rule R158): ERR set, the other result flags cleared, nothing else. -/
def execIllegal0E (s : State) : Result := .next (s.setResult true false false false false)

/-- SRST (rule R157): the whole state to its reset values, as a hardware reset. -/
def execSrst (s : State) : Result := .next s.toReset

end Sys2Proof.Machine
end

