-- ==== Sys2Proof/Machine/TokenLine.lean ====
section
/-! DEFINITION. TokenLine: `TOKENC`, `BTOK` and the commands ENCTOK and DECTOK (43_tokenline.md). -/

namespace Sys2Proof.Machine

/-- `tok(v)` (rule R111): `"0"` for a zero row unless `zp`, else the four bytes as two digits each, byte 0 first. -/
def rowToken (zp : Bool) (v : Row) : Bytes :=
  if v = 0 ∧ zp = false then [0x30] else (rowbytes v).flatMap hex2

/-- `TOKENC(b, zp)` (rule R111): the 16 tokens joined with single spaces. -/
def tokenc (b : Bitmap) (zp : Bool) : Bytes := [0x20].intercalate (b.toList.map (rowToken zp))

/-- The 8 digits read from a stripped token (rule R113): padded on the left with `'0'`, or truncated as `TRUNC_KEEP`
says. -/
def eightDigits (keep : TruncKeep) (s : Bytes) : Bytes :=
  if s.length < 8 then List.replicate (8 - s.length) 0x30 ++ s
  else if s.length = 8 then s
  else
    match keep with
    | .first => s.take 8
    | .last => s.drop (s.length - 8)

/-- The row a stripped token stands for (rule R113). The four bytes are those of `pairs`, which has exactly four for
eight digits. -/
def tokenRow (keep : TruncKeep) (s : Bytes) : Row :=
  if s.length = 0 ∨ s = [0x30] then 0
  else
    let p := pairs (eightDigits keep s)
    rowval (byteAt p 0) (byteAt p 1) (byteAt p 2) (byteAt p 3)

/-- `BTOK(t)` (rule R113): token `r` gives row `r`, a missing token a zero row, later tokens are not looked at. -/
def btok (keep : TruncKeep) (t : Bytes) : Bitmap :=
  let k := tokens t
  Vector.ofFn fun r =>
    match k[r.val]? with
    | none => 0
    | some tok => tokenRow keep (strip tok)

/-- ENCTOK (rule R112). -/
def execEnctok (zp : Bool) (s : State) : Result :=
  .next (s.setOutput (tokenc s.bmp zp)).clearResult

/-- DECTOK (rule R114). -/
def execDectok (s : State) : Result :=
  .next ((s.setBitmap (btok s.cfg.truncKeep s.input)).setResult false false false (lmTokenLine s.input)
    (mtTokenLine s.input))

end Sys2Proof.Machine
end

