-- ==== Sys2Proof/Machine/Dispatch.lean ====
section
/-! DEFINITION. The effect of each command. An arm hands on the option bits its command uses and no other
(30_encoding.md rules R52, R53, R55). -/

namespace Sys2Proof.Machine

def exec (i : Instr) (s : State) : Host.Outcome State Fault Refusal :=
  match i with
  | .nop _ _ _ _ => Sys2Proof.Machine.execNop s
  | .enc128 sp rn ib _ => Sys2Proof.Machine.execEnc128 sp rn ib s
  | .dec128 sp _ _ _ => Sys2Proof.Machine.execDec128 sp s
  | .enc64 _ _ _ _ => Sys2Proof.Machine.execEnc64 s
  | .dec64 _ _ _ _ => Sys2Proof.Machine.execDec64 s
  | .enctok _ _ _ zp => Sys2Proof.Machine.execEnctok zp s
  | .dectok _ _ _ _ => Sys2Proof.Machine.execDectok s
  | .encleg _ _ _ _ => Sys2Proof.Machine.execEncleg s
  | .tokenize _ _ _ _ => Sys2Proof.Machine.execTokenize s
  | .decauto _ _ _ _ => Sys2Proof.Machine.execDecauto s
  | .classify _ _ _ _ => Sys2Proof.Machine.execClassify s
  | .scanc _ _ _ _ => Sys2Proof.Machine.execScanc s
  | .line _ _ _ _ => Sys2Proof.Machine.execLine s
  | .clrin _ _ _ _ => Sys2Proof.Machine.execClrin s
  | .illegal0E _ _ _ _ => Sys2Proof.Machine.execIllegal0E s
  | .srst _ _ _ _ => Sys2Proof.Machine.execSrst s

end Sys2Proof.Machine
end

