-- ==== Sys2Proof/Machine/Bus.lean ====
section
/-! DEFINITION. The host port: the complete access table of 20_memory.md rule R31, the error response, and the reset
input. -/

namespace Sys2Proof.Machine

/-- The row register at an address (rule R31): `0x0000 + 4r` with size 4, `r = 0..15`. -/
def rowAddr? (addr size : Nat) : Option (Fin 16) :=
  if h : size = 4 ∧ addr % 4 = 0 ∧ addr < 0x0040 then some ⟨addr / 4, by omega⟩ else none

/-- What `MemRead(addr, n)` returns (rule R31). A read changes no state (rule R36). -/
def State.memRead (s : State) (addr size : Nat) : Response :=
  match rowAddr? addr size with
  | some r => .okWord s.bmp[r]
  | none =>
    if size = 4 ∧ addr = 0x0044 then .okWord (statusWord s.status)
    else if size = 4 ∧ addr = 0x0048 then .okWord (BitVec.ofNat 32 s.input.length)
    else if size = 4 ∧ addr = 0x004C then .okWord (BitVec.ofNat 32 s.output.length)
    else if size = 1 ∧ 0x1000 ≤ addr ∧ addr < 0x2000 then .okByte (byteAt s.input (addr - 0x1000))
    else if size = 1 ∧ 0x2000 ≤ addr ∧ addr < 0x3000 then .okByte (byteAt s.output (addr - 0x2000))
    else .busError

/-- Record the response of an access that went on. -/
def answer (r : Response) : Result → Result
  | .next s => .next (s.respond r)
  | .fault f => .fault f
  | .refused q => .refused q

/-- A host write of `w` to CMD starts the command whose word is `w[7:0]` and completes, `ok`, when the command has
(10_state.md rules R10, R17; 30_encoding.md rule R54). -/
def writeCmd (s : State) (w : Row) : Result := answer .ok (exec (decode w) s)

/-- What `MemWrite(addr, n, v)` does (rule R31). A write that has no entry is answered `BusError` and changes no state
(rule R41). -/
def memWrite (s : State) (addr size : Nat) (v : Row) : Result :=
  match rowAddr? addr size with
  | some r => answer .ok (.next (s.writeRow r v))
  | none =>
    if size = 4 ∧ addr = 0x0040 then writeCmd s v
    else if size = 4 ∧ addr = 0x0050 then answer .ok (.next (s.pushByte v))
    else answer .busError (.next s)

/-- The reset input is driven to a level (70_reset_and_hazards.md rule R185): when it is released the state is the
reset state; driving the level it has already is no event (log 5). -/
def State.driveReset (s : State) (asserted : Bool) : State :=
  if asserted then { s with resetLine := true }
  else if s.resetLine then { s.toReset with resetLine := false }
  else s

/-- One input from the outside world. While the reset input is asserted no host access is accepted (rule R185): the
spec refuses that case (log 6). -/
def serveInput (s : State) (a : HostInput) : Result :=
  match a with
  | .resetInput b => .next (s.driveReset b)
  | .read addr size =>
    if s.resetLine then .refused .accessDuringReset else answer (s.memRead addr size) (.next s)
  | .write addr size v =>
    if s.resetLine then .refused .accessDuringReset else memWrite s addr size v

end Sys2Proof.Machine
end

