-- ==== Sys2Proof/Machine/Step.lean ====
section
/-! DEFINITION. One step: the oldest pending input is served (70_reset_and_hazards.md rule R195, 20_memory.md rule
R37). There is no program counter (10_state.md rule R21): "each is delivered by a host write to CMD, and the order of
commands is the order of those writes". -/

namespace Sys2Proof.Machine

/-- One step. With no input pending nothing happens: nothing changes but by a host access, a command or reset
(10_state.md rules R13, R15, R16, R18), and there is no halt (70_reset_and_hazards.md rule R195; log 1). -/
def step (s : State) : Host.Outcome State Fault Refusal :=
  match s.pending with
  | [] => .next s
  | a :: rest => serveInput (s.withPending rest) a

/-- `s` with a host write of the command value `w` to CMD as its very next input, and the reset input released so that
the write is accepted. Programs are loaded from outside the machine: a program is the list of host accesses in
`pending` (log 1). The bits above `nbits` are zero in the number `w` itself. -/
def State.withFetchWord (s : State) (_nbits w : Nat) : State :=
  { s with resetLine := false, pending := .write 0x0040 4 (BitVec.ofNat 32 w) :: s.pending }

end Sys2Proof.Machine
end

