-- ==== Sys2Proof/WellFormed.lean ====
section
/-! DEFINITION. What is well-formed. Every term of `Instr` is a command: each of the 16 opcodes with each choice of the
four option bits is a row of 30_encoding.md rule R52 (rules R53, R55), so an instruction has no check. The parameters
have bounds (00_scope.md rule R5), and a host access has a form (20_memory.md rules R31, R34). -/

namespace Sys2Proof

/-- The constraints of rule R5: `768 <= IN_CAP <= 4096` and `max(143, ceil(IN_CAP / 2)) <= OUT_CAP <= 4096`. -/
def Config.wf (c : Config) : Bool :=
  decide (768 ≤ c.inCap) && decide (c.inCap ≤ 4096)
    && decide (143 ≤ c.outCap) && decide ((c.inCap + 1) / 2 ≤ c.outCap) && decide (c.outCap ≤ 4096)

namespace Machine

/-- The access has an entry in the table of rule R31: a register, at its aligned address with size 4, in a direction it
has; or a byte read inside a window. A level of the reset input has no form to check. -/
def HostInput.wf : HostInput → Bool
  | .read addr size =>
    (size == 4 && addr % 4 == 0 && decide (addr ≤ 0x004C) && addr != 0x0040)
      || (size == 1 && decide (0x1000 ≤ addr) && decide (addr ≤ 0x2FFF))
  | .write addr size _ =>
    size == 4 && addr % 4 == 0 && (decide (addr ≤ 0x0040) || addr == 0x0050)
  | .resetInput _ => true

end Machine

end Sys2Proof
end

