-- ==== Sys2Proof/Safety.lean ====
section
/-! DEFINITION. What counts as a safe state and a safe step, in the terms the statements use. -/

namespace Sys2Proof.Machine

/-- The capacity invariant: the parameters meet 00_scope.md rule R5 and the two buffers fit (10_state.md rules R15,
R16). -/
def State.Inv (s : State) : Prop :=
  s.cfg.wf = true ∧ s.input.length ≤ s.cfg.inCap ∧ s.output.length ≤ s.cfg.outCap

/-- The next input is not a host access that arrives while the reset input is asserted (70_reset_and_hazards.md rule
R185). -/
def State.Accepting (s : State) : Prop :=
  s.resetLine = false ∨ ∀ a ∈ s.pending.head?, ∃ b, a = HostInput.resetInput b

end Sys2Proof.Machine
end

