-- ==== Sys2Proof/Certificates/Slice0/Obligations.lean ====
section
/-! DEFINITION. The statements for the provers, from the numbered rules of spec/. The small definitions of
`Sys2Proof.Spec` say in the statements' own words what a frame, a digit and a command word are; they use no function of
the model. -/

namespace Sys2Proof.Spec

/-- The command word of 30_encoding.md rule R56 as a number: `OP | SP<<4 | RN<<5 | IB<<6 | ZP<<7`. -/
def word (op : Nat) (sp rn ib zp : Bool) : Byte :=
  BitVec.ofNat 8 (op + 0x10 * sp.toNat + 0x20 * rn.toNat + 0x40 * ib.toNat + 0x80 * zp.toNat)

/-- The command `c` has opcode `op`, whatever the option bits and whatever bits 31:8 of the written value
(30_encoding.md rules R50, R52). -/
def HasOpcode (op : Nat) (c : Bool → Bool → Bool → Bool → Instr) : Prop :=
  ∀ (hi : BitVec 24) (sp rn ib zp : Bool), decode (hi ++ word op sp rn ib zp) = c sp rn ib zp

/-- The opcode field of a value written to CMD. -/
def opcode (w : Row) : Nat := w.toNat % 16

/-- Where group `g` of a row stands among the row's 8 bytes: the table of 40_common.md rule R65. -/
def place (sp : Bool) (g : Nat) : Nat := if sp then [1, 0, 3, 2, 5, 4, 7, 6].getD g 0 else g

/-- Bit `k` of byte `i` of a sequence, 0 where there is no such byte (40_common.md rule R68). -/
def bitAt (y : Bytes) (i k : Nat) : Bool :=
  match y[i]? with
  | some c => c.getLsbD k
  | none => false

/-- `b` is what a Frame128 decoder reads from `y` (41_frame128.md rule R93): the pixel at column `4g + k` of row `r` is
bit `k` of byte `8r + perm(sp, g)`. -/
def IsFrame128 (y : Bytes) (sp : Bool) (b : Bitmap) : Prop :=
  ∀ (r : Fin 16) (g k : Nat), g < 8 → k < 4 → b[r].getLsbD (4 * g + k) = bitAt y (8 * r.val + place sp g) k

/-- `b` is what a Frame64 decoder reads from `y` (42_frame64.md rule R103): the pixel at column `8k + i` of row `r` is
bit `i` of byte `4r + k`. -/
def IsFrame64 (y : Bytes) (b : Bitmap) : Prop :=
  ∀ (r : Fin 16) (k i : Nat), k < 4 → i < 8 → b[r].getLsbD (8 * k + i) = bitAt y (4 * r.val + k) i

/-- `b` is what the classifier reads from `y` (45_legacyhex.md rule R132). -/
def IsClassified (y : Bytes) (b : Bitmap) : Prop :=
  (128 ≤ y.length → IsFrame128 y true b) ∧ (y.length < 128 → IsFrame64 y b)

/-- The ASCII code of the upper-case digit of a value below 16 (40_common.md rule R74). -/
def digitCode (n : Nat) : Nat := ("0123456789ABCDEF".toList.getD n '0').toNat

/-- `c` is a hex digit: `'0'..'9'`, `'A'..'F'` or `'a'..'f'` (40_common.md rule R70). -/
def IsDigit (c : Byte) : Prop :=
  (0x30 ≤ c.toNat ∧ c.toNat ≤ 0x39) ∨ (0x41 ≤ c.toNat ∧ c.toNat ≤ 0x46) ∨ (0x61 ≤ c.toNat ∧ c.toNat ≤ 0x66)

/-- The value of a hex digit (40_common.md rule R71). -/
def digitValue (c : Byte) : Nat :=
  if c.toNat ≤ 0x39 then c.toNat - 0x30 else if c.toNat ≤ 0x46 then c.toNat - 0x41 + 10 else c.toNat - 0x61 + 10

/-- `c` is whitespace (40_common.md rule R72). -/
def IsSpace (c : Byte) : Prop := c.toNat ∈ [0x09, 0x0A, 0x0B, 0x0C, 0x0D, 0x20]

/-- The host writes `bs` to INPUSH one byte after the other (30_encoding.md rule R57, `BYTES`). -/
def pushes (bs : Bytes) : List Machine.HostInput := bs.map fun y => .write 0x0050 4 (y.setWidth 32)

end Sys2Proof.Spec

open Sys2Proof Sys2Proof.Machine Sys2Proof.Spec

/-! ### Encoding and decoding -/

/-- Decoding an encoded command gives it back, whatever bits 31:8, and encoding what a word decodes to gives the word's
low 8 bits (30_encoding.md rules R50, R55, R56). That the command keeps its unused option bits is the model's choice,
log 10. -/
def Obligations.DecodeEncodeRoundTrip : Prop :=
  (∀ (i : Instr) (hi : BitVec 24), decode (hi ++ encode i) = i) ∧
  ∀ w : Row, encode (decode w) = w.extractLsb' 0 8

/-- Words written out from 30_encoding.md rules R52 and R56, one per family, decode to their commands. -/
def Obligations.CommandWordsDecode : Prop :=
  decode 0x00000000 = .nop false false false false ∧
  decode 0x00000071 = .enc128 true true true false ∧
  decode 0x00000012 = .dec128 true false false false ∧
  decode 0xABCDEF03 = .enc64 false false false false ∧
  decode 0x00000014 = .dec64 true false false false ∧
  decode 0x00000085 = .enctok false false false true ∧
  decode 0x00000007 = .encleg false false false false ∧
  decode 0x0000000A = .classify false false false false ∧
  decode 0x0000000C = .line false false false false ∧
  decode 0x000000FE = .illegal0E true true true true

/-- 30_encoding.md rule R53: an option bit that the command does not use has no effect, and neither have bits 31:8. -/
def Obligations.UnusedOptionBitsHaveNoEffect : Prop :=
  ∀ (w w' : Row) (s : State), opcode w = opcode w' →
    (opcode w = 0x1 ∨ opcode w = 0x2 → w.getLsbD 4 = w'.getLsbD 4) →
    (opcode w = 0x1 → w.getLsbD 5 = w'.getLsbD 5 ∧ w.getLsbD 6 = w'.getLsbD 6) →
    (opcode w = 0x5 → w.getLsbD 7 = w'.getLsbD 7) →
    exec (decode w) s = exec (decode w') s

/-! ### Frame128 -/

/-- 41_frame128.md rules R91, R92. -/
def Obligations.Enc128WritesNibblePerByteFrame : Prop :=
  HasOpcode 0x1 .enc128 ∧
  ∀ (sp rn ib zp : Bool) (s : State), ∃ o : Bytes,
    exec (.enc128 sp rn ib zp) s = .next { s with
      output := o
      status := { err := false, f128 := false, carr := false, lm := false, mt := false, iov := s.status.iov } } ∧
    o.length = 128 ∧
    ∀ (r : Fin 16) (g k : Nat), g < 8 → k < 8 →
      bitAt o (8 * r.val + place sp g) k =
        (decide (k < 4) && (s.bmp[r].getLsbD (4 * g + if rn then 3 - k else k) ^^ ib))

/-- 41_frame128.md rules R93, R94. -/
def Obligations.Dec128ReadsLowNibbles : Prop :=
  HasOpcode 0x2 .dec128 ∧
  ∀ (sp rn ib zp : Bool) (s : State), ∃ b : Bitmap,
    exec (.dec128 sp rn ib zp) s = .next { s with
      bmp := b
      status := { err := false, f128 := true, carr := false, lm := decide (s.input.length ≠ 128), mt := false,
                  iov := s.status.iov } } ∧
    IsFrame128 s.input sp b

/-- 41_frame128.md rule R95: encoding without RN and IB and decoding with the same SP leaves `BMP` as it was (for SP = 0
the spec's own derivation). -/
def Obligations.Frame128RoundTrip : Prop :=
  ∀ (sp zp rn' ib' zp' : Bool) (s : State), ∃ t u : State,
    exec (.enc128 sp false false zp) s = .next t ∧
    exec (.dec128 sp rn' ib' zp') { t with input := t.output } = .next u ∧
    u.bmp = s.bmp ∧ u.status.lm = false

/-- 41_frame128.md rule R96: what comes back when RN or IB was set on encode, and exactly when that is the bitmap. The
formulas are the spec's own derivation. -/
def Obligations.Frame128ExportAsymmetry : Prop :=
  ∀ (sp rn ib zp rn' ib' zp' : Bool) (s : State), ∃ t u : State,
    exec (.enc128 sp rn ib zp) s = .next t ∧
    exec (.dec128 sp rn' ib' zp') { t with input := t.output } = .next u ∧
    (∀ (r : Fin 16) (g k : Nat), g < 8 → k < 4 →
      u.bmp[r].getLsbD (4 * g + k) = (s.bmp[r].getLsbD (4 * g + if rn then 3 - k else k) ^^ ib)) ∧
    (rn = false → ib = true → ∀ r : Fin 16, u.bmp[r] = s.bmp[r] ^^^ 0xFFFFFFFF) ∧
    (rn = false → ib = true → u.bmp ≠ s.bmp) ∧
    (rn = true → ib = false →
      (u.bmp = s.bmp ↔ ∀ (r : Fin 16) (g : Nat), g < 8 →
        s.bmp[r].toNat / 16 ^ g % 16 ∈ [0x0, 0x6, 0x9, 0xF])) ∧
    (rn = true → ib = true →
      (u.bmp = s.bmp ↔ ∀ (r : Fin 16) (g : Nat), g < 8 →
        s.bmp[r].toNat / 16 ^ g % 16 ∈ [0x3, 0x5, 0xA, 0xC]))

/-- 41_frame128.md rule R97: encoding with one SP and decoding with the other exchanges the groups of every row two by
two. The spec's own derivation. -/
def Obligations.MismatchedSwapExchangesGroups : Prop :=
  ∀ (sp zp rn' ib' zp' : Bool) (s : State), ∃ t u : State,
    exec (.enc128 sp false false zp) s = .next t ∧
    exec (.dec128 (!sp) rn' ib' zp') { t with input := t.output } = .next u ∧
    ∀ (r : Fin 16) (g k : Nat), g < 8 → k < 4 →
      u.bmp[r].getLsbD (4 * g + k) = s.bmp[r].getLsbD (4 * place true g + k)

/-! ### Frame64 -/

/-- 42_frame64.md rules R101, R102. -/
def Obligations.Enc64WritesLittleEndianRows : Prop :=
  HasOpcode 0x3 .enc64 ∧
  ∀ (sp rn ib zp : Bool) (s : State), ∃ o : Bytes,
    exec (.enc64 sp rn ib zp) s = .next { s with
      output := o
      status := { err := false, f128 := false, carr := false, lm := false, mt := false, iov := s.status.iov } } ∧
    o.length = 64 ∧
    ∀ (r : Fin 16) (k i : Nat), k < 4 → i < 8 → bitAt o (4 * r.val + k) i = s.bmp[r].getLsbD (8 * k + i)

/-- 42_frame64.md rules R103, R104. -/
def Obligations.Dec64ReadsLittleEndianRows : Prop :=
  HasOpcode 0x4 .dec64 ∧
  ∀ (sp rn ib zp : Bool) (s : State), ∃ b : Bitmap,
    exec (.dec64 sp rn ib zp) s = .next { s with
      bmp := b
      status := { err := false, f128 := false, carr := false, lm := decide (s.input.length ≠ 64), mt := false,
                  iov := s.status.iov } } ∧
    IsFrame64 s.input b

/-- 42_frame64.md rule R105, both ways: decoding what was encoded leaves `BMP` as it was, and encoding what was decoded
from exactly 64 bytes gives the bytes back (the second is the spec's own derivation). -/
def Obligations.Frame64RoundTripBothWays : Prop :=
  (∀ (sp rn ib zp sp' rn' ib' zp' : Bool) (s : State), ∃ t u : State,
    exec (.enc64 sp rn ib zp) s = .next t ∧
    exec (.dec64 sp' rn' ib' zp') { t with input := t.output } = .next u ∧
    u.bmp = s.bmp ∧ u.status.lm = false) ∧
  ∀ (sp rn ib zp sp' rn' ib' zp' : Bool) (s : State), s.input.length = 64 → ∃ t u : State,
    exec (.dec64 sp rn ib zp) s = .next t ∧ exec (.enc64 sp' rn' ib' zp') t = .next u ∧ u.output = s.input

/-- 42_frame64.md rule R106: writing the 16 words of a Frame64 to the row registers has the same effect on `BMP` as
DEC64 (the flags apart). The spec's own derivation. -/
def Obligations.Dec64EqualsSixteenRowWrites : Prop :=
  ∀ (sp rn ib zp : Bool) (s : State), s.resetLine = false →
    s.pending = (List.finRange 16).map (fun r : Fin 16 => HostInput.write (4 * r.val) 4
      (BitVec.ofNat 32 ((s.input.getD (4 * r.val) 0).toNat + 2 ^ 8 * (s.input.getD (4 * r.val + 1) 0).toNat
        + 2 ^ 16 * (s.input.getD (4 * r.val + 2) 0).toNat + 2 ^ 24 * (s.input.getD (4 * r.val + 3) 0).toNat))) →
    ∃ t u : State,
      exec (.dec64 sp rn ib zp) s = .next t ∧ Host.Core.run Sys2Proof.core 16 s = .next u ∧
      u.bmp = t.bmp ∧ u.status = s.status ∧ u.input = s.input ∧ u.output = s.output ∧ u.pending = []

/-! ### TokenLine -/

/-- 43_tokenline.md rules R111, R112: 16 tokens joined with single spaces, `"0"` for a zero row without ZP, else the
four bytes of the row, byte 0 first, as two upper-case digits each, high nibble first. -/
def Obligations.EnctokWritesSixteenTokens : Prop :=
  HasOpcode 0x5 .enctok ∧
  ∀ (sp rn ib zp : Bool) (s : State), ∃ (o : Bytes) (tok : Fin 16 → Bytes),
    exec (.enctok sp rn ib zp) s = .next { s with
      output := o
      status := { err := false, f128 := false, carr := false, lm := false, mt := false, iov := s.status.iov } } ∧
    o = [0x20].intercalate (List.ofFn tok) ∧
    o.length = 15 + ((List.finRange 16).map fun r : Fin 16 => if s.bmp[r] = 0 ∧ zp = false then 1 else 8).sum ∧
    ∀ r : Fin 16,
      (s.bmp[r] = 0 ∧ zp = false → tok r = [0x30]) ∧
      (¬(s.bmp[r] = 0 ∧ zp = false) → (tok r).length = 8 ∧ ∀ k < 4,
        ((tok r).getD (2 * k) 0).toNat = digitCode (s.bmp[r].toNat / 256 ^ k % 256 / 16) ∧
        ((tok r).getD (2 * k + 1) 0).toNat = digitCode (s.bmp[r].toNat / 256 ^ k % 16))

/-- 43_tokenline.md rules R113, R114: each of the first 16 tokens, stripped, is padded on the left or cut to 8 digits,
and digit `q` is the high (`q` even) or low (`q` odd) nibble of byte `q / 2` of the row. -/
def Obligations.DectokReadsSixteenTokens : Prop :=
  HasOpcode 0x6 .dectok ∧
  ∀ (sp rn ib zp : Bool) (s : State), ∃ b : Bitmap,
    exec (.dectok sp rn ib zp) s = .next { s with
      bmp := b
      status :=
        { err := false, f128 := false, carr := false
          lm := decide ((tokens s.input).length ≠ 16 ∨ ∃ k ∈ (tokens s.input).take 16,
            (strip k).length ≠ 0 ∧ (strip k).length ≠ 8 ∧ strip k ≠ [0x30])
          mt := decide (∃ k ∈ (tokens s.input).take 16, (strip k).length = 0)
          iov := s.status.iov } } ∧
    ∀ r : Fin 16,
      ((tokens s.input).length ≤ r.val → b[r] = 0) ∧
      ∀ k, (tokens s.input)[r.val]? = some k → ∀ q < 8,
        b[r].toNat / 16 ^ (2 * (q / 2) + (1 - q % 2)) % 16 =
          digitValue ((if (strip k).length ≤ 8 then List.replicate (8 - (strip k).length) 0x30 ++ strip k
            else if s.cfg.truncKeep = .first then (strip k).take 8
            else (strip k).drop ((strip k).length - 8)).getD q 0)

/-- 43_tokenline.md rule R115: what ENCTOK writes, with or without ZP, DECTOK reads back, with LM = 0 and MT = 0. The
spec's own derivation. -/
def Obligations.TokenLineRoundTrip : Prop :=
  ∀ (sp rn ib zp sp' rn' ib' zp' : Bool) (s : State), ∃ t u : State,
    exec (.enctok sp rn ib zp) s = .next t ∧
    exec (.dectok sp' rn' ib' zp') { t with input := t.output } = .next u ∧
    u.bmp = s.bmp ∧ u.status.lm = false ∧ u.status.mt = false

/-! ### LegacyStyleText and the legacy tokenizer -/

/-- 44_legacytext.md rules R120, R121: each byte of the Frame64 is one digit and a space below 0x10, else two digits. -/
def Obligations.EnclegWritesTwoCharactersPerByte : Prop :=
  HasOpcode 0x7 .encleg ∧
  ∀ (sp rn ib zp : Bool) (s : State), ∃ o : Bytes,
    exec (.encleg sp rn ib zp) s = .next { s with
      output := o
      status := { err := false, f128 := false, carr := false, lm := false, mt := false, iov := s.status.iov } } ∧
    o.length = 128 ∧
    ∀ (r : Fin 16) (k y : Nat), k < 4 → y = s.bmp[r].toNat / 256 ^ k % 256 →
      (y < 0x10 → (o.getD (2 * (4 * r.val + k)) 0).toNat = digitCode y ∧ o.getD (2 * (4 * r.val + k) + 1) 0 = 0x20) ∧
      (0x10 ≤ y → (o.getD (2 * (4 * r.val + k)) 0).toNat = digitCode (y / 16) ∧
        (o.getD (2 * (4 * r.val + k) + 1) 0).toNat = digitCode (y % 16))

/-- 44_legacytext.md rule R122: CLASSIFY and LINE read a LegacyStyleText back, with F128 = 0, LM = 0, MT = 0 (and
CARR = 0, since the text holds no `'x'`). The spec's own derivation. -/
def Obligations.LegacyTextReadBack : Prop :=
  ∀ (sp rn ib zp sp' rn' ib' zp' : Bool) (s : State), ∃ t u v : State,
    exec (.encleg sp rn ib zp) s = .next t ∧
    exec (.classify sp' rn' ib' zp') { t with input := t.output } = .next u ∧
    exec (.line sp' rn' ib' zp') { t with input := t.output } = .next v ∧
    u.bmp = s.bmp ∧ v.bmp = s.bmp ∧ u.status = v.status ∧
    v.status.f128 = false ∧ v.status.lm = false ∧ v.status.mt = false ∧ v.status.carr = false

/-- 40_common.md rules R72, R76: tokens are the maximal runs of non-whitespace bytes. The four clauses determine
`tokens` on every text. -/
def Obligations.TokensAreMaximalRuns : Prop :=
  (∀ t : Bytes, ∀ k ∈ tokens t, k ≠ [] ∧ ∀ c ∈ k, ¬IsSpace c) ∧
  (∀ t : Bytes, (∀ c ∈ t, IsSpace c) → tokens t = []) ∧
  (∀ t : Bytes, t ≠ [] → (∀ c ∈ t, ¬IsSpace c) → tokens t = [t]) ∧
  ∀ (t u : Bytes) (w : Byte), IsSpace w → tokens (t ++ w :: u) = tokens t ++ tokens u

/-- 40_common.md rules R70, R77: stripping keeps exactly the hex digits, in their order. -/
def Obligations.StripKeepsExactlyTheHexDigits : Prop :=
  (∀ k : Bytes, ∀ c ∈ strip k, IsDigit c) ∧
  (∀ k : Bytes, (∀ c ∈ k, IsDigit c) → strip k = k) ∧
  (∀ k l : Bytes, strip (k ++ l) = strip k ++ strip l) ∧
  ∀ c : Byte, ¬IsDigit c → strip [c] = []

/-- 40_common.md rules R71, R78: two digits at a time from the left, the first the high nibble, an odd last digit a byte
of its own; `|pairs(s)| = ceil(|s| / 2)`. -/
def Obligations.PairsReadDigitsFromTheLeft : Prop :=
  ∀ s : Bytes, (∀ c ∈ s, IsDigit c) →
    (pairs s).length = (s.length + 1) / 2 ∧
    ∀ i : Nat,
      (2 * i + 1 < s.length →
        ((pairs s).getD i 0).toNat = 16 * digitValue (s.getD (2 * i) 0) + digitValue (s.getD (2 * i + 1) 0)) ∧
      (2 * i + 1 = s.length → ((pairs s).getD i 0).toNat = digitValue (s.getD (2 * i) 0))

/-- 45_legacyhex.md rule R130: each token is stripped and paired on its own, a token without a digit adds nothing. With
`TokensAreMaximalRuns` the clauses determine `TOKZ` on every text. -/
def Obligations.TokenizerPairsEachTokenAlone : Prop :=
  (∀ (t u : Bytes) (w : Byte), IsSpace w → tokz (t ++ w :: u) = tokz t ++ tokz u) ∧
  (∀ k : Bytes, (∀ c ∈ k, ¬IsSpace c) → tokz k = pairs (strip k)) ∧
  (∀ k : Bytes, (∀ c ∈ k, ¬IsSpace c) → (∀ c ∈ k, ¬IsDigit c) → tokz k = []) ∧
  tokz [0x30] = [0x00]

/-- 45_legacyhex.md rule R131. -/
def Obligations.TokenizeWritesLegacyBytes : Prop :=
  HasOpcode 0x8 .tokenize ∧
  ∀ (sp rn ib zp : Bool) (s : State),
    exec (.tokenize sp rn ib zp) s = .next { s with
      output := tokz s.input
      status := { err := false, f128 := false, carr := false, lm := false
                  mt := decide (∃ k ∈ tokens s.input, (strip k).length = 0), iov := s.status.iov } } ∧
    (tokz s.input).length ≤ (s.input.length + 1) / 2 ∧
    (s.Inv → (tokz s.input).length ≤ s.cfg.outCap)

/-- 45_legacyhex.md rule R135, first clause: the tokenizer is a left inverse of the one-or-two-characters-per-byte rule
of 44_legacytext.md rule R120 on every byte sequence. The spec's own derivation. -/
def Obligations.TokenizerInvertsCells : Prop :=
  ∀ y : Bytes, tokz (y.flatMap cell) = y ∧ mtText (y.flatMap cell) = false

/-! ### The classifying commands -/

/-- 45_legacyhex.md rules R132, R133. -/
def Obligations.DecautoClassifiesByLength : Prop :=
  HasOpcode 0x9 .decauto ∧
  ∀ (sp rn ib zp : Bool) (s : State), ∃ b : Bitmap,
    exec (.decauto sp rn ib zp) s = .next { s with
      bmp := b
      status := { err := false, f128 := decide (128 ≤ s.input.length), carr := false
                  lm := decide (s.input.length ≠ 64 ∧ s.input.length ≠ 128), mt := false, iov := s.status.iov } } ∧
    IsClassified s.input b

/-- 45_legacyhex.md rules R132, R134. -/
def Obligations.ClassifyTokenizesThenClassifies : Prop :=
  HasOpcode 0xA .classify ∧
  ∀ (sp rn ib zp : Bool) (s : State), ∃ b : Bitmap,
    exec (.classify sp rn ib zp) s = .next { s with
      bmp := b
      status := { err := false, f128 := decide (128 ≤ (tokz s.input).length), carr := false
                  lm := decide ((tokz s.input).length ≠ 64 ∧ (tokz s.input).length ≠ 128)
                  mt := decide (∃ k ∈ tokens s.input, (strip k).length = 0), iov := s.status.iov } } ∧
    IsClassified (tokz s.input) b

/-- 45_legacyhex.md rule R135, third clause: a pair-swapped Frame128 written one digit and a space per byte is read back
by CLASSIFY, with F128 = 1 and LM = 0. The spec's own derivation. -/
def Obligations.ClassifyReadsSwappedFrame128Text : Prop :=
  ∀ (zp sp' rn' ib' zp' : Bool) (s : State), ∃ t u : State,
    exec (.enc128 true false false zp) s = .next t ∧
    exec (.classify sp' rn' ib' zp') { t with input := t.output.flatMap cell } = .next u ∧
    u.bmp = s.bmp ∧ u.status.f128 = true ∧ u.status.lm = false ∧ u.status.mt = false

/-- 45_legacyhex.md rule R136: CLASSIFY reads a TokenLine as DECTOK does exactly when no token `0` stands before a
non-zero row's token. The spec's own derivation. -/
def Obligations.ClassifyOnTokenLineExactlyWhen : Prop :=
  ∀ (sp rn ib zp sp' rn' ib' zp' : Bool) (s : State), ∃ t u v : State,
    exec (.enctok sp rn ib zp) s = .next t ∧
    exec (.dectok sp' rn' ib' zp') { t with input := t.output } = .next u ∧
    exec (.classify sp' rn' ib' zp') { t with input := t.output } = .next v ∧
    (v.bmp = u.bmp ↔ (zp = true ∨ ∀ r r' : Fin 16, r < r' → s.bmp[r] = 0 → s.bmp[r'] = 0))

/-! ### The line handler -/

/-- 46_linehandler.md rule R145: the search step by step, with both values of `CARR_STRICT`. -/
def Obligations.CArraySearchScansLeftToRight : Prop :=
  (∀ (strict : Bool) (t : Bytes), t.length < 4 → carr strict t = []) ∧
  ∀ (strict : Bool) (a b c d : Byte) (rest : Bytes),
    ((a = 0x30 ∧ b = 0x78 ∧ IsDigit c ∧ IsDigit d ∧ (strict = true → ∀ e ∈ rest.head?, ¬IsDigit e)) →
      ∃ y : Byte, y.toNat = 16 * digitValue c + digitValue d ∧
        carr strict (a :: b :: c :: d :: rest) = y :: carr strict rest) ∧
    (¬(a = 0x30 ∧ b = 0x78 ∧ IsDigit c ∧ IsDigit d ∧ (strict = true → ∀ e ∈ rest.head?, ¬IsDigit e)) →
      carr strict (a :: b :: c :: d :: rest) = carr strict (b :: c :: d :: rest))

/-- A C initializer `0xNN, 0xNN, ` is read back whole, for both values of `CARR_STRICT` (from 46_linehandler.md rule
R145). -/
def Obligations.CArraySearchReadsInitializer : Prop :=
  ∀ (strict : Bool) (y : Bytes), carr strict (y.flatMap fun c => [0x30, 0x78] ++ hex2 c ++ [0x2C, 0x20]) = y

/-- 46_linehandler.md rule R146. -/
def Obligations.ScancWritesCArrayBytes : Prop :=
  HasOpcode 0xB .scanc ∧
  ∀ (sp rn ib zp : Bool) (s : State),
    exec (.scanc sp rn ib zp) s = .next { s with
      output := carr s.cfg.carrStrict s.input
      status := { err := false, f128 := false, carr := decide (carr s.cfg.carrStrict s.input ≠ []), lm := false
                  mt := false, iov := s.status.iov } } ∧
    (carr s.cfg.carrStrict s.input).length ≤ s.input.length / 4

/-- 46_linehandler.md rules R147, R148: the C-array bytes if there is one, else the legacy bytes; then the classifier. -/
def Obligations.LineTakesCArrayPathFirst : Prop :=
  HasOpcode 0xC .line ∧
  ∀ (sp rn ib zp : Bool) (s : State) (c y : Bytes), c = carr s.cfg.carrStrict s.input →
    y = (if c = [] then tokz s.input else c) → ∃ b : Bitmap,
    exec (.line sp rn ib zp) s = .next { s with
      bmp := b
      status := { err := false, f128 := decide (128 ≤ y.length), carr := decide (c ≠ [])
                  lm := decide (y.length ≠ 64 ∧ y.length ≠ 128)
                  mt := decide (c = [] ∧ ∃ k ∈ tokens s.input, (strip k).length = 0), iov := s.status.iov } } ∧
    IsClassified y b

/-! ### System commands -/

/-- 47_system.md rule R155. -/
def Obligations.NopChangesNothing : Prop :=
  HasOpcode 0x0 .nop ∧ ∀ (sp rn ib zp : Bool) (s : State), exec (.nop sp rn ib zp) s = .next s

/-- 47_system.md rule R156; after it the INBUF window reads 0x00 everywhere. -/
def Obligations.ClrinEmptiesInputAndFlags : Prop :=
  HasOpcode 0xD .clrin ∧
  ∀ (sp rn ib zp : Bool) (s : State), ∃ t : State,
    exec (.clrin sp rn ib zp) s = .next t ∧
    t = { s with
      input := []
      status := { err := false, f128 := false, carr := false, lm := false, mt := false, iov := false } } ∧
    t.memRead 0x0048 4 = .okWord 0 ∧ ∀ i < 4096, t.memRead (0x1000 + i) 1 = .okByte 0

/-- 47_system.md rule R158: the write to CMD completes `ok`, ERR is set, the other result flags are cleared, nothing
else changes. No other input sets ERR, and ERR is cleared by a command other than NOP and by reset only. That reset
clears it at the release of its input and not at the assertion is the model's choice, log 5; the queue of inputs and
the list of responses are logs 1 and 2. -/
def Obligations.UnassignedOpcodeSetsErrOnly : Prop :=
  HasOpcode 0xE .illegal0E ∧
  (∀ (sp rn ib zp : Bool) (s : State),
    exec (.illegal0E sp rn ib zp) s = .next { s with
      status := { err := true, f128 := false, carr := false, lm := false, mt := false, iov := s.status.iov } }) ∧
  (∀ (s : State) (w : Row) (rest : List HostInput), s.resetLine = false → opcode w = 0xE →
    s.pending = .write 0x0040 4 w :: rest →
    step s = .next { s with
      pending := rest
      responses := s.responses ++ [.ok]
      status := { err := true, f128 := false, carr := false, lm := false, mt := false, iov := s.status.iov } }) ∧
  (∀ (w : Row) (s t : State), exec (decode w) s = .next t → opcode w ∉ [0x0, 0xE] → t.status.err = false) ∧
  ∀ s t : State, step s = .next t →
    (s.status.err = false → t.status.err = true →
      ∃ (w : Row) (rest : List HostInput), s.pending = .write 0x0040 4 w :: rest ∧ opcode w = 0xE) ∧
    (s.status.err = true → t.status.err = false →
      ∃ (a : HostInput) (rest : List HostInput), s.pending = a :: rest ∧
        ((∃ w : Row, a = .write 0x0040 4 w ∧ opcode w ∉ [0x0, 0xE]) ∨ (s.resetLine = true ∧ a = .resetInput false)))

/-- 47_system.md rule R157: the whole state to the values of 10_state.md rule R23. -/
def Obligations.SrstPutsWholeStateToReset : Prop :=
  HasOpcode 0xF .srst ∧
  ∀ (sp rn ib zp : Bool) (s : State), ∃ b : Bitmap,
    (∀ r : Fin 16, b[r] = 0) ∧
    exec (.srst sp rn ib zp) s = .next { s with
      bmp := b
      input := []
      output := []
      status := { err := false, f128 := false, carr := false, lm := false, mt := false, iov := false } } ∧
    exec (.srst sp rn ib zp) s = .next { State.reset with
      resetLine := s.resetLine, cfg := s.cfg, pending := s.pending, responses := s.responses }

/-! ### The host port -/

/-- What a step does with a write to CMD: it runs the decoded command on the state without that input and then answers
`ok` (10_state.md rules R10, R17; the queue of inputs is log 1). The second clause is the same for `withFetchWord`. -/
def Obligations.StepRunsDecodedCommand : Prop :=
  (∀ (s : State) (w : Row) (rest : List HostInput), s.resetLine = false → s.pending = .write 0x0040 4 w :: rest →
    step s =
      match exec (decode w) { s with pending := rest } with
      | .next t => .next { t with responses := t.responses ++ [.ok] }
      | .fault f => .fault f
      | .refused q => .refused q) ∧
  ∀ (s : State) (nbits w : Nat),
    step (s.withFetchWord nbits w) =
      match exec (decode (BitVec.ofNat 32 w)) { s with resetLine := false } with
      | .next t => .next { t with responses := t.responses ++ [.ok] }
      | .fault f => .fault f
      | .refused q => .refused q

/-- 20_memory.md rules R31, R40, 10_state.md rules R18, R19: the value of every read, and `BusError` for every read that
has no entry. -/
def Obligations.ReadTableIsComplete : Prop :=
  ∀ s : State,
    (∀ r : Fin 16, s.memRead (4 * r.val) 4 = .okWord s.bmp[r]) ∧
    (∃ w : Row, s.memRead 0x0044 4 = .okWord w ∧
      w.getLsbD 0 = s.status.err ∧ w.getLsbD 1 = s.status.f128 ∧ w.getLsbD 2 = s.status.carr ∧
      w.getLsbD 3 = s.status.lm ∧ w.getLsbD 4 = s.status.mt ∧ w.getLsbD 5 = s.status.iov ∧
      ∀ i, 6 ≤ i → w.getLsbD i = false) ∧
    s.memRead 0x0048 4 = .okWord (BitVec.ofNat 32 s.input.length) ∧
    s.memRead 0x004C 4 = .okWord (BitVec.ofNat 32 s.output.length) ∧
    (∀ i < 4096, s.memRead (0x1000 + i) 1 = .okByte (if i < s.input.length then s.input.getD i 0 else 0)) ∧
    (∀ i < 4096, s.memRead (0x2000 + i) 1 = .okByte (if i < s.output.length then s.output.getD i 0 else 0)) ∧
    ∀ addr size : Nat, ¬(size = 4 ∧ addr % 4 = 0 ∧ (addr ≤ 0x003C ∨ addr = 0x0044 ∨ addr = 0x0048 ∨ addr = 0x004C)) →
      ¬(size = 1 ∧ 0x1000 ≤ addr ∧ addr ≤ 0x2FFF) → s.memRead addr size = .busError

/-- 20_memory.md rule R36: a read changes no state; its value is appended to the responses (log 2). -/
def Obligations.ReadsChangeNoState : Prop :=
  ∀ (s : State) (addr size : Nat) (rest : List HostInput), s.resetLine = false →
    s.pending = .read addr size :: rest →
    ∃ t : State, step s = .next t ∧
      t = { s with pending := rest, responses := s.responses ++ [s.memRead addr size] } ∧
      t.memRead addr size = s.memRead addr size

/-- 20_memory.md rules R34, R41: an access of a wrong size, alignment, direction or address is answered `BusError` and
changes no state. -/
def Obligations.MalformedAccessHasNoEffect : Prop :=
  (∀ (s : State) (a : HostInput) (rest : List HostInput), s.resetLine = false → s.pending = a :: rest → a.wf = false →
    step s = .next { s with pending := rest, responses := s.responses ++ [.busError] }) ∧
  ∀ (addr size : Nat) (v : Row),
    (size ≠ 1 ∧ size ≠ 4) ∨ (size = 1 ∧ addr < 0x1000) ∨ (size = 4 ∧ 0x1000 ≤ addr) ∨ (size = 4 ∧ addr % 4 ≠ 0) ∨
      (0x0054 ≤ addr ∧ addr < 0x1000) ∨ 0x3000 ≤ addr →
    (HostInput.read addr size).wf = false ∧ (HostInput.write addr size v).wf = false

/-- 10_state.md rule R14: a host write to `ROW[r]` replaces that row and touches nothing else; every row can be read. -/
def Obligations.RowWriteReplacesOneRow : Prop :=
  ∀ (s : State) (r : Fin 16) (v : Row) (rest : List HostInput), s.resetLine = false →
    s.pending = .write (4 * r.val) 4 v :: rest →
    ∃ (b : Bitmap) (t : State), b[r] = v ∧ (∀ r' : Fin 16, r' ≠ r → b[r'] = s.bmp[r']) ∧
      step s = .next t ∧
      t = { s with bmp := b, pending := rest, responses := s.responses ++ [.ok] } ∧
      ∀ r' : Fin 16, t.memRead (4 * r'.val) 4 = .okWord b[r']

/-- 10_state.md rule R20: a write to INPUSH appends the low byte, or drops it and sets IOV when `IN` is full. -/
def Obligations.InpushAppendsOrSetsIov : Prop :=
  ∀ (s : State) (w : Row) (rest : List HostInput), s.resetLine = false → s.pending = .write 0x0050 4 w :: rest →
    (s.input.length < s.cfg.inCap →
      step s = .next { s with
        input := s.input ++ [BitVec.ofNat 8 (w.toNat % 256)], pending := rest, responses := s.responses ++ [.ok] }) ∧
    (s.cfg.inCap ≤ s.input.length →
      step s = .next { s with
        status := { s.status with iov := true }, pending := rest, responses := s.responses ++ [.ok] })

/-- 70_reset_and_hazards.md rule R188: pushes accumulate, in order. -/
def Obligations.PushesAccumulate : Prop :=
  ∀ (s : State) (bs : Bytes) (rest : List HostInput), s.resetLine = false → s.pending = pushes bs ++ rest →
    s.input.length + bs.length ≤ s.cfg.inCap →
    Host.Core.run Sys2Proof.core bs.length s = .next { s with
      input := s.input ++ bs, pending := rest, responses := s.responses ++ List.replicate bs.length .ok }

/-- 70_reset_and_hazards.md rule R185: when the reset input is released the state is that of rule R23. The model keeps
the parameters, the inputs to come and the responses (logs 1, 2, 3), and refuses an access while reset is asserted
(log 6). -/
def Obligations.ResetInputRelease : Prop :=
  (∀ (s : State) (rest : List HostInput), s.resetLine = true → s.pending = .resetInput false :: rest →
    step s = .next { State.reset with cfg := s.cfg, pending := rest, responses := s.responses }) ∧
  ∀ (s : State) (a : HostInput) (rest : List HostInput), s.resetLine = true → s.pending = a :: rest →
    (∀ b, a ≠ .resetInput b) → step s = .refused .accessDuringReset

/-- 70_reset_and_hazards.md rule R195: every finite list of accesses runs to its end, each access answered. -/
def Obligations.EveryRunCompletes : Prop :=
  ∀ s : State, s.resetLine = false → (∀ a ∈ s.pending, ∀ b, a ≠ .resetInput b) →
    ∃ t : State, Host.Core.run Sys2Proof.core s.pending.length s = .next t ∧
      t.pending = [] ∧ t.resetLine = false ∧ t.cfg = s.cfg ∧
      t.responses.length = s.responses.length + s.pending.length ∧ s.responses <+: t.responses

/-! ### Invariants and whole-machine rules -/

/-- Every step keeps the capacity invariant: the buffers never exceed `IN_CAP` and `OUT_CAP` (10_state.md rules R15,
R16; 00_scope.md rule R5). -/
def Obligations.StepKeepsCapacities : Prop :=
  ∀ s t : State, s.Inv → step s = .next t → t.Inv

/-- The state after reset: the last column of 10_state.md rule R23 and the defaults of 00_scope.md rule R5, and the
capacity invariant holds. That the reset input is released in it is log 7. -/
def Obligations.ResetStateValues : Prop :=
  (∀ r : Fin 16, State.reset.bmp[r] = 0) ∧ State.reset.input = [] ∧ State.reset.output = [] ∧
  State.reset.status = { err := false, f128 := false, carr := false, lm := false, mt := false, iov := false } ∧
  State.reset.cfg = { inCap := 1024, outCap := 512, truncKeep := .first, carrStrict := true } ∧
  State.reset.Inv

/-- A step completes in every state but one whose next input is a host access while reset is asserted (60_exceptions.md
rule R165). -/
def Obligations.AcceptedInputsComplete : Prop :=
  ∀ s : State, (∃ t : State, step s = .next t) ↔ s.Accepting

/-- 60_exceptions.md rule R165, 10_state.md rule R22: every command, whatever the written value, runs to completion and
its write is answered `ok`; no command and no access changes the parameters. -/
def Obligations.CommandsNeverTrap : Prop :=
  (∀ (s : State) (w : Row) (rest : List HostInput), s.resetLine = false → s.pending = .write 0x0040 4 w :: rest →
    ∃ t : State, step s = .next t ∧ t.pending = rest ∧ t.resetLine = false ∧ t.responses = s.responses ++ [.ok]) ∧
  ∀ s t : State, step s = .next t → t.cfg = s.cfg

/-- 10_state.md rule R13: the bitmap is written only by a row write, a decode command, SRST and reset. That reset acts
at the release of its input and not at the assertion is the model's choice, log 5. -/
def Obligations.BitmapWriters : Prop :=
  ∀ s t : State, step s = .next t → t.bmp ≠ s.bmp →
    ∃ (a : HostInput) (rest : List HostInput), s.pending = a :: rest ∧
      ((∃ (r : Fin 16) (v : Row), a = .write (4 * r.val) 4 v) ∨
       (∃ w : Row, a = .write 0x0040 4 w ∧ opcode w ∈ [0x2, 0x4, 0x6, 0x9, 0xA, 0xC, 0xF]) ∨
       (s.resetLine = true ∧ a = .resetInput false))

/-- 10_state.md rule R15: `IN` is changed only by a push, which appends one byte, by CLRIN, SRST and reset, which empty
it. That reset acts at the
release of its input and not at the assertion is the model's choice, log 5. -/
def Obligations.InputWriters : Prop :=
  ∀ s t : State, step s = .next t → t.input ≠ s.input →
    ∃ (a : HostInput) (rest : List HostInput), s.pending = a :: rest ∧
      ((∃ (v : Row) (y : Byte), a = .write 0x0050 4 v ∧ t.input = s.input ++ [y]) ∨
       (∃ w : Row, a = .write 0x0040 4 w ∧ opcode w ∈ [0xD, 0xF] ∧ t.input = []) ∨
       (s.resetLine = true ∧ a = .resetInput false ∧ t.input = []))

/-- 10_state.md rule R16: `OUT` is written only by the six byte-producing commands, SRST and reset. That reset acts
at the release of its input and not at the assertion is the model's choice, log 5. -/
def Obligations.OutputWriters : Prop :=
  ∀ s t : State, step s = .next t → t.output ≠ s.output →
    ∃ (a : HostInput) (rest : List HostInput), s.pending = a :: rest ∧
      ((∃ w : Row, a = .write 0x0040 4 w ∧ opcode w ∈ [0x1, 0x3, 0x5, 0x7, 0x8, 0xB, 0xF]) ∨
       (s.resetLine = true ∧ a = .resetInput false))

/-- 10_state.md rule R18, 60_exceptions.md rules R166, R173: which commands can leave which result flag set; NOP changes
none. -/
def Obligations.ResultFlagsByOpcode : Prop :=
  ∀ (w : Row) (s t : State), exec (decode w) s = .next t →
    (opcode w = 0x0 → t.status = s.status) ∧
    (opcode w ≠ 0x0 →
      t.status.err = decide (opcode w = 0xE) ∧
      (t.status.f128 = true → opcode w ∈ [0x2, 0x9, 0xA, 0xC]) ∧
      (t.status.carr = true → opcode w ∈ [0xB, 0xC]) ∧
      (t.status.lm = true → opcode w ∈ [0x2, 0x4, 0x6, 0x9, 0xA, 0xC]) ∧
      (t.status.mt = true → opcode w ∈ [0x6, 0x8, 0xA, 0xC]))

/-- 10_state.md rules R18, R20: IOV is set only by a push into a full buffer and cleared only by CLRIN, SRST and
reset. That reset acts at the
release of its input and not at the assertion is the model's choice, log 5. -/
def Obligations.OverflowFlagIsSticky : Prop :=
  ∀ s t : State, step s = .next t →
    (s.status.iov = false → t.status.iov = true →
      ∃ (v : Row) (rest : List HostInput), s.pending = .write 0x0050 4 v :: rest ∧ s.cfg.inCap ≤ s.input.length) ∧
    (s.status.iov = true → t.status.iov = false →
      ∃ (a : HostInput) (rest : List HostInput), s.pending = a :: rest ∧
        ((∃ w : Row, a = .write 0x0040 4 w ∧ opcode w ∈ [0xD, 0xF]) ∨ (s.resetLine = true ∧ a = .resetInput false)))

/-- 10_state.md rules R16, R18: nothing a command computes depends on `OUT` or on a flag. -/
def Obligations.OutputAndFlagsAreNeverRead : Prop :=
  ∀ (i : Instr) (s : State) (o : Bytes) (f : Status), ∃ t u : State,
    exec i s = .next t ∧ exec i { s with output := o, status := f } = .next u ∧
    u.bmp = t.bmp ∧ u.input = t.input ∧
    (u.output = t.output ∨ (t.output = s.output ∧ u.output = o)) ∧
    ((t.status = s.status ∧ u.status = f) ∨ { u.status with iov := t.status.iov } = t.status)

/-- 20_memory.md rule R35: a decode command replaces the whole bitmap; no row of the result comes from the old one. -/
def Obligations.DecodeReplacesWholeBitmap : Prop :=
  ∀ (w : Row) (s : State) (b : Bitmap), opcode w ∈ [0x2, 0x4, 0x6, 0x9, 0xA, 0xC] → ∃ t u : State,
    exec (decode w) s = .next t ∧ exec (decode w) { s with bmp := b } = .next u ∧ u = t

/-- The frame of every command through the host's reads (from 30_encoding.md rule R52, "Writes", and 10_state.md rules
R13 to R20): an address that does not show what the command writes reads as before. -/
def Obligations.CommandFrameThroughReads : Prop :=
  ∀ (w : Row) (s t : State) (addr size : Nat), exec (decode w) s = .next t →
    (opcode w = 0x0 → t.memRead addr size = s.memRead addr size) ∧
    (opcode w ∈ [0x1, 0x3, 0x5, 0x7, 0x8, 0xB] → addr ≠ 0x0044 → addr ≠ 0x004C → ¬(0x2000 ≤ addr ∧ addr ≤ 0x2FFF) →
      t.memRead addr size = s.memRead addr size) ∧
    (opcode w ∈ [0x2, 0x4, 0x6, 0x9, 0xA, 0xC] → 0x0040 ≤ addr → addr ≠ 0x0044 →
      t.memRead addr size = s.memRead addr size) ∧
    (opcode w = 0xD → addr ≠ 0x0044 → addr ≠ 0x0048 → ¬(0x1000 ≤ addr ∧ addr ≤ 0x1FFF) →
      t.memRead addr size = s.memRead addr size) ∧
    (opcode w = 0xE → addr ≠ 0x0044 → t.memRead addr size = s.memRead addr size)
end

