-- ==== Sys2Proof/Laws/Decode.lean ====
section
/-! SUPPORT. The laws of the decoder: which bits of a written value it reads, and the command an opcode selects. -/

namespace Sys2Proof

/-! ### The rows of rule R52 -/

@[simp] theorem instrOfOp_nop : instrOfOp 0#4 = .nop := rfl
@[simp] theorem instrOfOp_enc128 : instrOfOp 1#4 = .enc128 := rfl
@[simp] theorem instrOfOp_dec128 : instrOfOp 2#4 = .dec128 := rfl
@[simp] theorem instrOfOp_enc64 : instrOfOp 3#4 = .enc64 := rfl
@[simp] theorem instrOfOp_dec64 : instrOfOp 4#4 = .dec64 := rfl
@[simp] theorem instrOfOp_enctok : instrOfOp 5#4 = .enctok := rfl
@[simp] theorem instrOfOp_dectok : instrOfOp 6#4 = .dectok := rfl
@[simp] theorem instrOfOp_encleg : instrOfOp 7#4 = .encleg := rfl
@[simp] theorem instrOfOp_tokenize : instrOfOp 8#4 = .tokenize := rfl
@[simp] theorem instrOfOp_decauto : instrOfOp 9#4 = .decauto := rfl
@[simp] theorem instrOfOp_classify : instrOfOp 10#4 = .classify := rfl
@[simp] theorem instrOfOp_scanc : instrOfOp 11#4 = .scanc := rfl
@[simp] theorem instrOfOp_line : instrOfOp 12#4 = .line := rfl
@[simp] theorem instrOfOp_clrin : instrOfOp 13#4 = .clrin := rfl
@[simp] theorem instrOfOp_illegal0E : instrOfOp 14#4 = .illegal0E := rfl
@[simp] theorem instrOfOp_srst : instrOfOp 15#4 = .srst := rfl

/-! ### The bits of a written value -/

theorem opField_append (hi : BitVec 24) (lo : Byte) : opField (hi ++ lo) = lo.extractLsb' 0 4 := by
  apply BitVec.eq_of_getLsbD_eq
  intro i hi'
  simp only [opField, BitVec.getLsbD_extractLsb', BitVec.getLsbD_append]
  rw [if_pos (show 0 + i < 8 by omega)]

theorem getLsbD_append_byte (hi : BitVec 24) (lo : Byte) (i : Nat) (h : i < 8) :
    (hi ++ lo).getLsbD i = lo.getLsbD i := by
  simp only [BitVec.getLsbD_append, h, if_true]

/-- Only the low byte of a written value matters (rule R50). -/
theorem decode_append (hi : BitVec 24) (lo : Byte) :
    decode (hi ++ lo) =
      instrOfOp (lo.extractLsb' 0 4) (lo.getLsbD 4) (lo.getLsbD 5) (lo.getLsbD 6) (lo.getLsbD 7) := by
  rw [decode, opField_append, spField, rnField, ibField, zpField]
  rw [getLsbD_append_byte, getLsbD_append_byte, getLsbD_append_byte, getLsbD_append_byte] <;> omega

theorem append_extract_byte (w : Row) : w.extractLsb' 8 24 ++ w.extractLsb' 0 8 = w := by
  apply BitVec.eq_of_getLsbD_eq
  intro i hi
  rw [BitVec.getLsbD_append]
  split
  · rename_i h
    simp [h]
  · simp only [BitVec.getLsbD_extractLsb']
    rw [show 8 + (i - 8) = i by omega]
    simp [show i - 8 < 24 by omega]

theorem toNat_opField (w : Row) : (opField w).toNat = w.toNat % 16 := by
  simp [opField, BitVec.extractLsb'_toNat]

/-- The command selected by a written value whose opcode field is `n` (rule R55). -/
theorem decode_of_opcode (w : Row) (n : Nat) (h : w.toNat % 16 = n) :
    decode w =
      instrOfOp (BitVec.ofNat 4 n) (w.getLsbD 4) (w.getLsbD 5) (w.getLsbD 6) (w.getLsbD 7) := by
  have hop : opField w = BitVec.ofNat 4 n := by
    apply BitVec.eq_of_toNat_eq
    have hn : n < 16 := by omega
    rw [toNat_opField, h]
    simp only [BitVec.toNat_ofNat]
    omega
  rw [decode, hop]
  rfl

end Sys2Proof
end

