-- ==== Sys2Proof/Laws/Operands.lean ====
section
/-! SUPPORT. One law per shared function of Machine/Operands.lean, cited instead of unfolding it. -/

namespace Sys2Proof.Machine

/-! ### The pair-swap permutation (rule R65) -/

theorem perm_false (j : Nat) : perm false j = j := rfl

theorem perm_true_eq_table (j : Nat) (hj : j < 8) : perm true j = [1, 0, 3, 2, 5, 4, 7, 6].getD j 0 := by
  have : ∀ j < 8, perm true j = [1, 0, 3, 2, 5, 4, 7, 6].getD j 0 := by decide
  exact this j hj

theorem perm_lt (sp : Bool) (j : Nat) (hj : j < 8) : perm sp j < 8 := by
  have : ∀ sp : Bool, ∀ j < 8, perm sp j < 8 := by decide
  exact this sp j hj

theorem perm_perm (sp : Bool) (j : Nat) : perm sp (perm sp j) = j := by
  cases sp
  · rfl
  · simp [perm, pairSwap]

/-! ### Bits of a row (rules R66, R67, R69) -/

theorem getLsbD_grp (v : Row) (g k : Nat) : (grp v g).getLsbD k = (decide (k < 4) && v.getLsbD (4 * g + k)) := by
  simp [grp, BitVec.getLsbD_extractLsb']

theorem getLsbD_rev4 (n : Nib) (k : Nat) (hk : k < 4) : (rev4 n).getLsbD k = n.getLsbD (3 - k) := by
  have : ∀ (n : Nib) (k : Fin 4), (rev4 n).getLsbD k.val = n.getLsbD (3 - k.val) := by decide
  exact this n ⟨k, hk⟩

theorem rev4_rev4 (n : Nib) : rev4 (rev4 n) = n := by
  have : ∀ n : Nib, rev4 (rev4 n) = n := by decide
  exact this n

theorem getLsbD_joinGroups (n : Nat → Nib) (g k : Nat) (hg : g < 8) (hk : k < 4) :
    (joinGroups n).getLsbD (4 * g + k) = (n g).getLsbD k := by
  unfold joinGroups
  interval_cases g <;> interval_cases k <;> simp only [BitVec.getLsbD_append] <;> rfl

/-- Two rows with the same 8 groups of 4 pixels are equal. -/
theorem row_ext_groups {v w : Row} (h : ∀ g < 8, ∀ k < 4, v.getLsbD (4 * g + k) = w.getLsbD (4 * g + k)) : v = w := by
  apply BitVec.eq_of_getLsbD_eq
  intro i hi
  have := h (i / 4) (by omega) (i % 4) (by omega)
  rwa [Nat.div_add_mod] at this

/-- Two rows with the same 4 bytes are equal. -/
theorem row_ext_bytes {v w : Row} (h : ∀ k < 4, ∀ i < 8, v.getLsbD (8 * k + i) = w.getLsbD (8 * k + i)) : v = w := by
  apply BitVec.eq_of_getLsbD_eq
  intro i hi
  have := h (i / 8) (by omega) (i % 8) (by omega)
  rwa [Nat.div_add_mod] at this

theorem joinGroups_grp (v : Row) : joinGroups (grp v) = v := by
  refine row_ext_groups fun g hg k hk => ?_
  rw [getLsbD_joinGroups _ g k hg hk, getLsbD_grp]
  simp [hk]

theorem grp_joinGroups (n : Nat → Nib) (g : Nat) (hg : g < 8) : grp (joinGroups n) g = n g := by
  apply BitVec.eq_of_getLsbD_eq
  intro k hk
  rw [getLsbD_grp, getLsbD_joinGroups n g k hg hk]
  simp [hk]

theorem length_rowbytes (v : Row) : (rowbytes v).length = 4 := rfl

theorem getD_rowbytes (v : Row) (k : Nat) (hk : k < 4) : (rowbytes v).getD k 0 = v.extractLsb' (8 * k) 8 := by
  interval_cases k <;> rfl

theorem getLsbD_rowval (b : Nat → Byte) (k i : Nat) (hk : k < 4) (hi : i < 8) :
    (rowval (b 0) (b 1) (b 2) (b 3)).getLsbD (8 * k + i) = (b k).getLsbD i := by
  unfold rowval
  interval_cases k <;> interval_cases i <;> simp

theorem rowval_rowbytes (v : Row) :
    rowval (v.extractLsb' 0 8) (v.extractLsb' 8 8) (v.extractLsb' 16 8) (v.extractLsb' 24 8) = v := by
  refine row_ext_bytes fun k hk i hi => ?_
  rw [getLsbD_rowval (fun k => v.extractLsb' (8 * k) 8) k i hk hi]
  simp [hi]

theorem rowbytes_rowval (b0 b1 b2 b3 : Byte) : rowbytes (rowval b0 b1 b2 b3) = [b0, b1, b2, b3] := by
  have h : ∀ k, k < 4 → (rowval b0 b1 b2 b3).extractLsb' (8 * k) 8 = [b0, b1, b2, b3].getD k 0 := by
    intro k hk
    apply BitVec.eq_of_getLsbD_eq
    intro i hi
    have := getLsbD_rowval (fun k => [b0, b1, b2, b3].getD k 0) k i hk hi
    simp only [BitVec.getLsbD_extractLsb', hi, decide_true, Bool.true_and]
    exact this
  unfold rowbytes
  rw [h 0 (by omega), h 1 (by omega), h 2 (by omega), h 3 (by omega)]
  rfl

/-! ### `fit` (rule R68) -/

theorem length_fit (b : Bytes) (n : Nat) : (fit b n).length = n := by simp [fit]

theorem byteAt_fit (b : Bytes) (n i : Nat) (hi : i < n) : byteAt (fit b n) i = byteAt b i := by
  simp [byteAt, fit, List.getD_eq_getElem?_getD, hi]

theorem byteAt_of_lt (b : Bytes) (i : Nat) (hi : i < b.length) : byteAt b i = b[i] := by
  simp [byteAt, hi]

theorem byteAt_of_ge (b : Bytes) (i : Nat) (hi : b.length ≤ i) : byteAt b i = 0 := by
  simp [byteAt, List.getD_eq_getElem?_getD, hi]

/-- `fit` keeps a sequence that has the wanted length. -/
theorem fit_eq_self (b : Bytes) : fit b b.length = b := by
  apply List.ext_getElem (length_fit _ _)
  intro i h1 h2
  simp [fit, byteAt, h2]

/-! ### Characters (rules R70 to R75) -/

theorem hexval?_hexdigit (n : Nib) : hexval? (hexdigit n) = some n := by
  have : ∀ n : Nib, hexval? (hexdigit n) = some n := by decide
  exact this n

theorem isHex_hexdigit (n : Nib) : isHex (hexdigit n) = true := by
  simp [isHex, hexval?_hexdigit]

theorem isWs_hexdigit (n : Nib) : isWs (hexdigit n) = false := by
  have : ∀ n : Nib, isWs (hexdigit n) = false := by decide
  exact this n

theorem hexdigit_ne_x (n : Nib) : hexdigit n ≠ 0x78 := by
  have : ∀ n : Nib, hexdigit n ≠ 0x78 := by decide
  exact this n

theorem hexdigit_toNat (n : Nib) :
    (hexdigit n).toNat = ("0123456789ABCDEF".toList.getD n.toNat '0').toNat := by
  have : ∀ n : Nib, (hexdigit n).toNat = ("0123456789ABCDEF".toList.getD n.toNat '0').toNat := by decide
  exact this n

/-- The classes HEX and WS do not meet (rule R73). -/
theorem isHex_of_isWs (c : Byte) (h : isWs c = true) : isHex c = false := by
  have : ∀ c : Byte, isWs c = true → isHex c = false := by decide +revert
  exact this c h

theorem append_nibbles (b : Byte) : (b.extractLsb' 4 4 ++ b.extractLsb' 0 4 : Byte) = b := by
  apply BitVec.eq_of_getLsbD_eq
  intro i hi
  interval_cases i <;> simp only [BitVec.getLsbD_append, BitVec.getLsbD_extractLsb'] <;> rfl

/-! ### Tokens (rules R76 to R78) -/

theorem tokensFrom_nil (cur : Bytes) : tokensFrom cur [] = if cur.isEmpty then [] else [cur] := rfl

theorem tokensFrom_cons (cur : Bytes) (c : Byte) (t : Bytes) :
    tokensFrom cur (c :: t) =
      if isWs c then (if cur.isEmpty then tokensFrom [] t else cur :: tokensFrom [] t) else tokensFrom (cur ++ [c]) t :=
  rfl

/-- A run without whitespace only lengthens the token being read. -/
theorem tokensFrom_run (cur u t : Bytes) (hu : ∀ c ∈ u, isWs c = false) :
    tokensFrom cur (u ++ t) = tokensFrom (cur ++ u) t := by
  induction u generalizing cur with
  | nil => simp
  | cons c u ih =>
    have hc : isWs c = false := hu c (by simp)
    rw [List.cons_append, tokensFrom_cons, hc]
    simp only [Bool.false_eq_true, if_false]
    rw [ih (cur ++ [c]) (fun d hd => hu d (by simp [hd]))]
    simp

/-- A whitespace byte ends what stands before it. -/
theorem tokensFrom_append_ws (cur t u : Bytes) (w : Byte) (hw : isWs w = true) :
    tokensFrom cur (t ++ w :: u) = tokensFrom cur t ++ tokensFrom [] u := by
  induction t generalizing cur with
  | nil =>
    rw [List.nil_append, tokensFrom_cons, tokensFrom_nil, hw]
    cases cur <;> simp
  | cons c t ih =>
    rw [List.cons_append, tokensFrom_cons, tokensFrom_cons]
    split
    · split
      · exact ih []
      · rw [ih []]; rfl
    · exact ih _

theorem tokens_nil : tokens [] = [] := rfl

theorem tokens_append_ws (t u : Bytes) (w : Byte) (hw : isWs w = true) :
    tokens (t ++ w :: u) = tokens t ++ tokens u := tokensFrom_append_ws [] t u w hw

theorem tokens_run (u : Bytes) (hne : u ≠ []) (hu : ∀ c ∈ u, isWs c = false) : tokens u = [u] := by
  have := tokensFrom_run [] u [] hu
  rw [List.append_nil, List.nil_append, tokensFrom_nil] at this
  rw [tokens, this]
  cases u with
  | nil => exact absurd rfl hne
  | cons c u => rfl

theorem strip_append (k l : Bytes) : strip (k ++ l) = strip k ++ strip l := by simp [strip]

theorem strip_of_hex (k : Bytes) (h : ∀ c ∈ k, isHex c = true) : strip k = k := by
  simpa [strip] using h

theorem isHex_of_mem_strip (k : Bytes) : ∀ c ∈ strip k, isHex c = true := by
  intro c hc
  exact (List.mem_filter.mp hc).2

theorem length_strip_le (k : Bytes) : (strip k).length ≤ k.length := List.length_filter_le _ _

theorem length_pairNibs : ∀ l : List Nib, (pairNibs l).length = (l.length + 1) / 2
  | [] => rfl
  | [_] => by simp [pairNibs]
  | _ :: _ :: t => by
    simp only [pairNibs, List.length_cons, length_pairNibs t]
    omega

theorem length_filterMap_hexval (s : Bytes) (h : ∀ c ∈ s, isHex c = true) :
    (s.filterMap hexval?).length = s.length := by
  induction s with
  | nil => rfl
  | cons c s ih =>
    have hc : (hexval? c).isSome = true := h c (by simp)
    obtain ⟨n, hn⟩ := Option.isSome_iff_exists.mp hc
    simp [hn, ih (fun d hd => h d (by simp [hd]))]

/-- `|pairs(s)| = ceil(|s| / 2)` (rule R78). -/
theorem length_pairs (s : Bytes) (h : ∀ c ∈ s, isHex c = true) : (pairs s).length = (s.length + 1) / 2 := by
  rw [pairs, length_pairNibs, length_filterMap_hexval s h]

theorem pairNibs_two_append (a b : Nib) (t : List Nib) : pairNibs (a :: b :: t) = (a ++ b) :: pairNibs t := rfl

/-- Two digits in front are one byte in front. -/
theorem pairs_hex2_append (y : Byte) (s : Bytes) : pairs (hex2 y ++ s) = y :: pairs s := by
  simp [pairs, hex2, hexval?_hexdigit, pairNibs_two_append, append_nibbles]

end Sys2Proof.Machine
end

