-- ==== Sys2Proof/Laws/Formats.lean ====
section
/-! SUPPORT. One law per format function: which byte or pixel each encoder and decoder puts where, how long the
results are, and what the text functions do at a whitespace byte, a cell or a literal. -/

namespace Sys2Proof.Machine

/-! ### Rows laid out one after the other -/

theorem length_flatMap_const {α β : Type} {f : α → List β} {n : Nat} (hf : ∀ a, (f a).length = n) :
    ∀ l : List α, (l.flatMap f).length = n * l.length
  | [] => by simp
  | a :: l => by
    rw [List.flatMap_cons, List.length_append, hf, length_flatMap_const hf l, List.length_cons, Nat.mul_succ]
    omega

theorem getElem?_flatMap_const {α β : Type} {f : α → List β} {n : Nat} (hf : ∀ a, (f a).length = n) {j : Nat}
    (hj : j < n) : ∀ (l : List α) (r : Nat), (l.flatMap f)[n * r + j]? = l[r]?.bind fun a => (f a)[j]?
  | [], r => by simp
  | a :: l, 0 => by
    rw [List.flatMap_cons, List.getElem?_append_left (by rw [hf]; omega)]
    simp
  | a :: l, r + 1 => by
    rw [List.flatMap_cons, List.getElem?_append_right (by rw [hf, Nat.mul_succ]; omega), hf]
    have : n * (r + 1) + j - n = n * r + j := by rw [Nat.mul_succ]; omega
    rw [this, getElem?_flatMap_const hf hj l r]
    simp

theorem getElem?_toList (b : Bitmap) (r : Fin 16) : b.toList[r.val]? = some b[r] := by
  rw [List.getElem?_eq_getElem (by simp)]
  simp

/-- Byte `n*r + j` of the rows laid out `n` bytes each is byte `j` of row `r`. -/
theorem byteAt_rows {f : Row → Bytes} {n : Nat} (hf : ∀ v, (f v).length = n) (b : Bitmap) (r : Fin 16) (j : Nat)
    (hj : j < n) : byteAt (b.toList.flatMap f) (n * r.val + j) = byteAt (f b[r]) j := by
  simp only [byteAt, List.getD_eq_getElem?_getD]
  rw [getElem?_flatMap_const hf hj, getElem?_toList]
  rfl

theorem length_rows {f : Row → Bytes} {n : Nat} (hf : ∀ v, (f v).length = n) (b : Bitmap) :
    (b.toList.flatMap f).length = n * 16 := by
  rw [length_flatMap_const hf]
  simp

theorem bitmap_ext {a b : Bitmap} (h : ∀ r : Fin 16, a[r] = b[r]) : a = b := by
  apply Vector.ext
  intro i hi
  exact h ⟨i, hi⟩

/-! ### Frame128 (rules R91, R93) -/

theorem length_frame128Row (sp rn ib : Bool) (v : Row) : (frame128Row sp rn ib v).length = 8 := by simp [frame128Row]

theorem length_f128 (b : Bitmap) (sp rn ib : Bool) : (f128 b sp rn ib).length = 128 := by
  rw [f128, length_rows (length_frame128Row sp rn ib)]

theorem byteAt_f128 (b : Bitmap) (sp rn ib : Bool) (r : Fin 16) (j : Nat) (hj : j < 8) :
    byteAt (f128 b sp rn ib) (8 * r.val + j) = (frameNibble rn ib (grp b[r] (perm sp j))).setWidth 8 := by
  rw [f128, byteAt_rows (length_frame128Row sp rn ib) b r j hj]
  simp [byteAt, frame128Row, List.getD_eq_getElem?_getD, hj]

theorem getLsbD_frameNibble (rn ib : Bool) (n : Nib) (k : Nat) (hk : k < 4) :
    (frameNibble rn ib n).getLsbD k = (n.getLsbD (if rn then 3 - k else k) ^^ ib) := by
  have : ∀ (rn ib : Bool) (n : Nib) (k : Fin 4),
      (frameNibble rn ib n).getLsbD k.val = (n.getLsbD (if rn then 3 - k.val else k.val) ^^ ib) := by decide
  exact this rn ib n ⟨k, hk⟩

theorem getLsbD_b128 (s : Bytes) (sp : Bool) (r : Fin 16) (g k : Nat) (hg : g < 8) (hk : k < 4) :
    (b128 s sp)[r].getLsbD (4 * g + k) = (byteAt s (8 * r.val + perm sp g)).getLsbD k := by
  have hp := perm_lt sp g hg
  simp only [b128, Fin.getElem_fin, Vector.getElem_ofFn]
  rw [getLsbD_joinGroups _ g k hg hk, byteAt_fit _ _ _ (by omega)]
  simp [hk]

/-! ### Frame64 (rules R101, R103) -/

theorem length_f64 (b : Bitmap) : (f64 b).length = 64 := by
  rw [f64, length_rows length_rowbytes]

theorem byteAt_f64 (b : Bitmap) (r : Fin 16) (k : Nat) (hk : k < 4) :
    byteAt (f64 b) (4 * r.val + k) = b[r].extractLsb' (8 * k) 8 := by
  rw [f64, byteAt_rows length_rowbytes b r k hk]
  exact getD_rowbytes _ k hk

theorem getLsbD_b64 (s : Bytes) (r : Fin 16) (k i : Nat) (hk : k < 4) (hi : i < 8) :
    (b64 s)[r].getLsbD (8 * k + i) = (byteAt s (4 * r.val + k)).getLsbD i := by
  simp only [b64, Fin.getElem_fin, Vector.getElem_ofFn]
  refine (getLsbD_rowval (fun k => byteAt (fit s 64) (4 * r.val + k)) k i hk hi).trans ?_
  rw [byteAt_fit _ _ _ (by omega)]

/-! ### TokenLine (rules R111, R113) -/

theorem length_flatMap_hex2 (l : Bytes) : (l.flatMap hex2).length = 2 * l.length :=
  length_flatMap_const (f := hex2) (n := 2) (fun _ => rfl) l

theorem mem_flatMap_hex2 (l : Bytes) : ∀ c ∈ l.flatMap hex2, ∃ n, c = hexdigit n := by
  intro c hc
  obtain ⟨y, -, hy⟩ := List.mem_flatMap.mp hc
  simp only [hex2, List.mem_cons, List.not_mem_nil, or_false] at hy
  rcases hy with rfl | rfl <;> exact ⟨_, rfl⟩

theorem pairs_flatMap_hex2 (l : Bytes) : pairs (l.flatMap hex2) = l := by
  induction l with
  | nil => rfl
  | cons y l ih => rw [List.flatMap_cons, pairs_hex2_append, ih]

theorem rowToken_zero : rowToken false 0 = [0x30] := rfl

theorem rowToken_of_ne (zp : Bool) (v : Row) (h : ¬(v = 0 ∧ zp = false)) :
    rowToken zp v = (rowbytes v).flatMap hex2 := by
  rw [rowToken, if_neg h]

theorem length_rowToken (zp : Bool) (v : Row) :
    (rowToken zp v).length = if v = 0 ∧ zp = false then 1 else 8 := by
  unfold rowToken
  split
  · rfl
  · rw [length_flatMap_hex2, length_rowbytes]

theorem mem_rowToken (zp : Bool) (v : Row) : ∀ c ∈ rowToken zp v, ∃ n, c = hexdigit n := by
  intro c hc
  by_cases h : v = 0 ∧ zp = false
  · rw [rowToken, if_pos h] at hc
    exact ⟨0, by rw [List.mem_singleton.mp hc]; decide⟩
  · rw [rowToken_of_ne zp v h] at hc
    exact mem_flatMap_hex2 _ c hc

theorem rowToken_ne_nil (zp : Bool) (v : Row) : rowToken zp v ≠ [] := by
  intro h
  have := length_rowToken zp v
  rw [h] at this
  split at this <;> simp at this

/-- A token is its own stripped form. -/
theorem strip_rowToken (zp : Bool) (v : Row) : strip (rowToken zp v) = rowToken zp v := by
  refine strip_of_hex _ fun c hc => ?_
  obtain ⟨n, rfl⟩ := mem_rowToken zp v c hc
  exact isHex_hexdigit n

theorem eightDigits_of_eight (keep : TruncKeep) (s : Bytes) (h : s.length = 8) : eightDigits keep s = s := by
  unfold eightDigits
  rw [if_neg (by omega), if_pos h]

theorem tokenRow_rowToken (keep : TruncKeep) (zp : Bool) (v : Row) : tokenRow keep (rowToken zp v) = v := by
  by_cases h : v = 0 ∧ zp = false
  · obtain ⟨rfl, rfl⟩ := h
    rfl
  · have hlen : (rowToken zp v).length = 8 := by rw [length_rowToken, if_neg h]
    have hne : ¬((rowToken zp v).length = 0 ∨ rowToken zp v = [0x30]) := by
      rintro (h0 | h0)
      · omega
      · rw [h0] at hlen
        simp at hlen
    rw [tokenRow, if_neg hne, eightDigits_of_eight keep _ hlen, rowToken_of_ne zp v h, pairs_flatMap_hex2]
    exact rowval_rowbytes v

/-- Tokens without whitespace, joined with single spaces, are read back as they are. -/
theorem tokens_intercalate : ∀ l : List Bytes, (∀ k ∈ l, k ≠ [] ∧ ∀ c ∈ k, isWs c = false) →
    tokens ([0x20].intercalate l) = l
  | [], _ => rfl
  | [k], h => by
    have hk := h k (by simp)
    simpa [List.intercalate] using tokens_run k hk.1 hk.2
  | k :: m :: l, h => by
    have hk := h k (by simp)
    have ih := tokens_intercalate (m :: l) fun x hx => h x (List.mem_cons_of_mem _ hx)
    have : [0x20].intercalate (k :: m :: l) = k ++ 0x20 :: [0x20].intercalate (m :: l) := by
      simp [List.intercalate, List.intersperse]
    rw [this, tokens_append_ws k _ 0x20 (by decide), tokens_run k hk.1 hk.2, ih]
    rfl

theorem tokens_tokenc (b : Bitmap) (zp : Bool) : tokens (tokenc b zp) = b.toList.map (rowToken zp) := by
  refine tokens_intercalate _ fun k hk => ?_
  obtain ⟨v, -, rfl⟩ := List.mem_map.mp hk
  refine ⟨rowToken_ne_nil zp v, fun c hc => ?_⟩
  obtain ⟨n, rfl⟩ := mem_rowToken zp v c hc
  exact isWs_hexdigit n

theorem length_intercalate_space : ∀ l : List Bytes, l ≠ [] →
    ([0x20].intercalate l : Bytes).length = (l.map List.length).sum + (l.length - 1)
  | [], h => absurd rfl h
  | [k], _ => by simp [List.intercalate]
  | k :: m :: l, _ => by
    have ih := length_intercalate_space (m :: l) (by simp)
    have : [0x20].intercalate (k :: m :: l) = k ++ 0x20 :: [0x20].intercalate (m :: l) := by
      simp [List.intercalate, List.intersperse]
    rw [this, List.length_append, List.length_cons, ih]
    simp only [List.map_cons, List.sum_cons, List.length_cons]
    omega

/-- The longest TokenLine has 143 bytes (rule R110). -/
theorem length_tokenc_le (b : Bitmap) (zp : Bool) : (tokenc b zp).length ≤ 143 := by
  have hlen : b.toList.length = 16 := by simp
  have hne : b.toList.map (rowToken zp) ≠ [] := by
    intro h
    have := congrArg List.length h
    simp at this
  have hsum : ∀ l : List Row, ((l.map (rowToken zp)).map List.length).sum ≤ 8 * l.length := by
    intro l
    induction l with
    | nil => simp
    | cons v l ih =>
      have hv : (rowToken zp v).length ≤ 8 := by rw [length_rowToken]; split <;> omega
      simp only [List.map_cons, List.sum_cons, List.length_cons]
      omega
  rw [tokenc, length_intercalate_space _ hne]
  have := hsum b.toList
  rw [List.length_map]
  omega

/-! ### The legacy tokenizer (rules R120, R130) -/

theorem length_cell (y : Byte) : (cell y).length = 2 := by
  unfold cell
  split <;> rfl

theorem length_legc (b : Bitmap) : (legc b).length = 128 := by
  rw [legc, length_flatMap_const length_cell, length_f64]

theorem tokz_nil : tokz [] = [] := rfl

theorem tokz_append_ws (t u : Bytes) (w : Byte) (hw : isWs w = true) : tokz (t ++ w :: u) = tokz t ++ tokz u := by
  simp [tokz, tokens_append_ws t u w hw]

theorem tokz_run (u : Bytes) (hu : ∀ c ∈ u, isWs c = false) : tokz u = pairs (strip u) := by
  by_cases hne : u = []
  · subst hne
    rfl
  · simp [tokz, tokens_run u hne hu]

theorem length_tokensFrom (cur t : Bytes) :
    ((tokensFrom cur t).map fun k => k.length + 1).sum ≤ cur.length + t.length + 1 := by
  induction t generalizing cur with
  | nil =>
    rw [tokensFrom_nil]
    split <;> simp
  | cons c t ih =>
    rw [tokensFrom_cons, List.length_cons]
    split
    · split
      · have := ih []
        simp only [List.length_nil] at this
        omega
      · have := ih []
        simp only [List.length_nil] at this
        simp only [List.map_cons, List.sum_cons]
        omega
    · have := ih (cur ++ [c])
      simp only [List.length_append, List.length_cons, List.length_nil] at this
      omega

/-- Tokenizing `n` bytes yields at most `ceil(n / 2)` bytes (00_scope.md rule R5, 45_legacyhex.md rule R131). -/
theorem length_tokz_le (t : Bytes) : (tokz t).length ≤ (t.length + 1) / 2 := by
  have h := length_tokensFrom [] t
  have hsum : ∀ l : List Bytes, 2 * (l.flatMap fun k => pairs (strip k)).length ≤ (l.map fun k => k.length + 1).sum := by
    intro l
    induction l with
    | nil => simp
    | cons k l ih =>
      have h1 := length_pairs (strip k) (isHex_of_mem_strip k)
      have h2 := length_strip_le k
      simp only [List.flatMap_cons, List.length_append, List.map_cons, List.sum_cons]
      omega
  have := hsum (tokens t)
  simp only [List.length_nil] at h
  unfold tokz tokens at *
  omega

/-! ### The C-array search (rule R145) -/

theorem carr_cons (strict : Bool) (a b c d : Byte) (rest : Bytes) :
    carr strict (a :: b :: c :: d :: rest) =
      match carrMatch strict a b c d rest with
      | some y => y :: carr strict rest
      | none => carr strict (b :: c :: d :: rest) := by
  rfl

theorem carr_of_short (strict : Bool) (t : Bytes) (h : t.length < 4) : carr strict t = [] := by
  match t, h with
  | [], _ => rfl
  | [_], _ => rfl
  | [_, _], _ => rfl
  | [_, _, _], _ => rfl
  | _ :: _ :: _ :: _ :: _, h =>
    simp only [List.length_cons] at h
    omega

/-- At most one literal for every four bytes (rule R146). -/
theorem length_carr_le (strict : Bool) : ∀ t : Bytes, 4 * (carr strict t).length ≤ t.length
  | a :: b :: c :: d :: rest => by
    rw [carr_cons]
    split
    · have := length_carr_le strict rest
      simp only [List.length_cons]
      omega
    · have := length_carr_le strict (b :: c :: d :: rest)
      simp only [List.length_cons] at this ⊢
      omega
  | [] => by rw [carr_of_short strict _ (by simp)]; simp
  | [_] => by rw [carr_of_short strict _ (by simp)]; simp
  | [_, _] => by rw [carr_of_short strict _ (by simp)]; simp
  | [_, _, _] => by rw [carr_of_short strict _ (by simp)]; simp

theorem carrMatch_needs_x (strict : Bool) (a b c d : Byte) (rest : Bytes) (h : b ≠ 0x78) :
    carrMatch strict a b c d rest = none := by
  unfold carrMatch
  rw [if_neg]
  rintro ⟨-, hb, -⟩
  exact h hb

theorem carr_without_x (strict : Bool) : ∀ t : Bytes, 0x78 ∉ t → carr strict t = []
  | a :: b :: c :: d :: rest, h => by
    have hb : b ≠ 0x78 := by
      rintro rfl
      simp at h
    rw [carr_cons, carrMatch_needs_x strict a b c d rest hb]
    exact carr_without_x strict (b :: c :: d :: rest) fun hm => h (List.mem_cons_of_mem _ hm)
  | [], _ => carr_of_short strict _ (by simp)
  | [_], _ => carr_of_short strict _ (by simp)
  | [_, _], _ => carr_of_short strict _ (by simp)
  | [_, _, _], _ => carr_of_short strict _ (by simp)

end Sys2Proof.Machine
end

