-- ==== Sys2Proof/Laws/PerInstr.lean ====
section
/-! SUPPORT. Family `OpcodeField`: the low nibble of a command's word is the opcode of 30_encoding.md rule R52 and bits
4 to 7 are its options SP, RN, IB, ZP (rule R56). -/

namespace Sys2Proof.Laws.OpcodeField

/-- The opcode of rule R52 and the options of a command. -/
def fields : Instr → Nib × Bool × Bool × Bool × Bool
  | .nop sp rn ib zp => (0x0, sp, rn, ib, zp)
  | .enc128 sp rn ib zp => (0x1, sp, rn, ib, zp)
  | .dec128 sp rn ib zp => (0x2, sp, rn, ib, zp)
  | .enc64 sp rn ib zp => (0x3, sp, rn, ib, zp)
  | .dec64 sp rn ib zp => (0x4, sp, rn, ib, zp)
  | .enctok sp rn ib zp => (0x5, sp, rn, ib, zp)
  | .dectok sp rn ib zp => (0x6, sp, rn, ib, zp)
  | .encleg sp rn ib zp => (0x7, sp, rn, ib, zp)
  | .tokenize sp rn ib zp => (0x8, sp, rn, ib, zp)
  | .decauto sp rn ib zp => (0x9, sp, rn, ib, zp)
  | .classify sp rn ib zp => (0xA, sp, rn, ib, zp)
  | .scanc sp rn ib zp => (0xB, sp, rn, ib, zp)
  | .line sp rn ib zp => (0xC, sp, rn, ib, zp)
  | .clrin sp rn ib zp => (0xD, sp, rn, ib, zp)
  | .illegal0E sp rn ib zp => (0xE, sp, rn, ib, zp)
  | .srst sp rn ib zp => (0xF, sp, rn, ib, zp)

/-- The command word holds the opcode and the options at their places. -/
def Statement (i : Instr) : Prop :=
  ((encode i).extractLsb' 0 4, (encode i).getLsbD 4, (encode i).getLsbD 5, (encode i).getLsbD 6, (encode i).getLsbD 7)
    = fields i

theorem nop : ∀ sp rn ib zp, Statement (.nop sp rn ib zp) := by unfold Statement; decide
theorem enc128 : ∀ sp rn ib zp, Statement (.enc128 sp rn ib zp) := by unfold Statement; decide
theorem dec128 : ∀ sp rn ib zp, Statement (.dec128 sp rn ib zp) := by unfold Statement; decide
theorem enc64 : ∀ sp rn ib zp, Statement (.enc64 sp rn ib zp) := by unfold Statement; decide
theorem dec64 : ∀ sp rn ib zp, Statement (.dec64 sp rn ib zp) := by unfold Statement; decide
theorem enctok : ∀ sp rn ib zp, Statement (.enctok sp rn ib zp) := by unfold Statement; decide
theorem dectok : ∀ sp rn ib zp, Statement (.dectok sp rn ib zp) := by unfold Statement; decide
theorem encleg : ∀ sp rn ib zp, Statement (.encleg sp rn ib zp) := by unfold Statement; decide
theorem tokenize : ∀ sp rn ib zp, Statement (.tokenize sp rn ib zp) := by unfold Statement; decide
theorem decauto : ∀ sp rn ib zp, Statement (.decauto sp rn ib zp) := by unfold Statement; decide
theorem classify : ∀ sp rn ib zp, Statement (.classify sp rn ib zp) := by unfold Statement; decide
theorem scanc : ∀ sp rn ib zp, Statement (.scanc sp rn ib zp) := by unfold Statement; decide
theorem line : ∀ sp rn ib zp, Statement (.line sp rn ib zp) := by unfold Statement; decide
theorem clrin : ∀ sp rn ib zp, Statement (.clrin sp rn ib zp) := by unfold Statement; decide
theorem illegal0E : ∀ sp rn ib zp, Statement (.illegal0E sp rn ib zp) := by unfold Statement; decide
theorem srst : ∀ sp rn ib zp, Statement (.srst sp rn ib zp) := by unfold Statement; decide

end Sys2Proof.Laws.OpcodeField
end

