-- ==== Sys2Proof/Laws/State.lean ====
section
/-! SUPPORT. What each shared update of the state leaves in each field, so that no later proof unfolds an update. -/

namespace Sys2Proof.Machine

/-! ### `State.setResult` -/

@[simp] theorem State.setResult_bmp (s : State) (err f128 carr lm mt : Bool) :
    (s.setResult err f128 carr lm mt).bmp = s.bmp := rfl
@[simp] theorem State.setResult_input (s : State) (err f128 carr lm mt : Bool) :
    (s.setResult err f128 carr lm mt).input = s.input := rfl
@[simp] theorem State.setResult_output (s : State) (err f128 carr lm mt : Bool) :
    (s.setResult err f128 carr lm mt).output = s.output := rfl
@[simp] theorem State.setResult_status (s : State) (err f128 carr lm mt : Bool) :
    (s.setResult err f128 carr lm mt).status = s.status.withResult err f128 carr lm mt := rfl
@[simp] theorem State.setResult_resetLine (s : State) (err f128 carr lm mt : Bool) :
    (s.setResult err f128 carr lm mt).resetLine = s.resetLine := rfl
@[simp] theorem State.setResult_cfg (s : State) (err f128 carr lm mt : Bool) :
    (s.setResult err f128 carr lm mt).cfg = s.cfg := rfl
@[simp] theorem State.setResult_pending (s : State) (err f128 carr lm mt : Bool) :
    (s.setResult err f128 carr lm mt).pending = s.pending := rfl
@[simp] theorem State.setResult_responses (s : State) (err f128 carr lm mt : Bool) :
    (s.setResult err f128 carr lm mt).responses = s.responses := rfl

/-! ### `State.clearResult` -/

@[simp] theorem State.clearResult_bmp (s : State) :
    (s.clearResult).bmp = s.bmp := rfl
@[simp] theorem State.clearResult_input (s : State) :
    (s.clearResult).input = s.input := rfl
@[simp] theorem State.clearResult_output (s : State) :
    (s.clearResult).output = s.output := rfl
@[simp] theorem State.clearResult_status (s : State) :
    (s.clearResult).status = s.status.withResult false false false false false := rfl
@[simp] theorem State.clearResult_resetLine (s : State) :
    (s.clearResult).resetLine = s.resetLine := rfl
@[simp] theorem State.clearResult_cfg (s : State) :
    (s.clearResult).cfg = s.cfg := rfl
@[simp] theorem State.clearResult_pending (s : State) :
    (s.clearResult).pending = s.pending := rfl
@[simp] theorem State.clearResult_responses (s : State) :
    (s.clearResult).responses = s.responses := rfl

/-! ### `State.setOutput` -/

@[simp] theorem State.setOutput_bmp (s : State) (o : Bytes) :
    (s.setOutput o).bmp = s.bmp := rfl
@[simp] theorem State.setOutput_input (s : State) (o : Bytes) :
    (s.setOutput o).input = s.input := rfl
@[simp] theorem State.setOutput_output (s : State) (o : Bytes) :
    (s.setOutput o).output = o := rfl
@[simp] theorem State.setOutput_status (s : State) (o : Bytes) :
    (s.setOutput o).status = s.status := rfl
@[simp] theorem State.setOutput_resetLine (s : State) (o : Bytes) :
    (s.setOutput o).resetLine = s.resetLine := rfl
@[simp] theorem State.setOutput_cfg (s : State) (o : Bytes) :
    (s.setOutput o).cfg = s.cfg := rfl
@[simp] theorem State.setOutput_pending (s : State) (o : Bytes) :
    (s.setOutput o).pending = s.pending := rfl
@[simp] theorem State.setOutput_responses (s : State) (o : Bytes) :
    (s.setOutput o).responses = s.responses := rfl

/-! ### `State.setBitmap` -/

@[simp] theorem State.setBitmap_bmp (s : State) (b : Bitmap) :
    (s.setBitmap b).bmp = b := rfl
@[simp] theorem State.setBitmap_input (s : State) (b : Bitmap) :
    (s.setBitmap b).input = s.input := rfl
@[simp] theorem State.setBitmap_output (s : State) (b : Bitmap) :
    (s.setBitmap b).output = s.output := rfl
@[simp] theorem State.setBitmap_status (s : State) (b : Bitmap) :
    (s.setBitmap b).status = s.status := rfl
@[simp] theorem State.setBitmap_resetLine (s : State) (b : Bitmap) :
    (s.setBitmap b).resetLine = s.resetLine := rfl
@[simp] theorem State.setBitmap_cfg (s : State) (b : Bitmap) :
    (s.setBitmap b).cfg = s.cfg := rfl
@[simp] theorem State.setBitmap_pending (s : State) (b : Bitmap) :
    (s.setBitmap b).pending = s.pending := rfl
@[simp] theorem State.setBitmap_responses (s : State) (b : Bitmap) :
    (s.setBitmap b).responses = s.responses := rfl

/-! ### `State.toReset` -/

@[simp] theorem State.toReset_bmp (s : State) :
    (s.toReset).bmp = blankBitmap := rfl
@[simp] theorem State.toReset_input (s : State) :
    (s.toReset).input = [] := rfl
@[simp] theorem State.toReset_output (s : State) :
    (s.toReset).output = [] := rfl
@[simp] theorem State.toReset_status (s : State) :
    (s.toReset).status = Status.clear := rfl
@[simp] theorem State.toReset_resetLine (s : State) :
    (s.toReset).resetLine = s.resetLine := rfl
@[simp] theorem State.toReset_cfg (s : State) :
    (s.toReset).cfg = s.cfg := rfl
@[simp] theorem State.toReset_pending (s : State) :
    (s.toReset).pending = s.pending := rfl
@[simp] theorem State.toReset_responses (s : State) :
    (s.toReset).responses = s.responses := rfl

/-! ### `State.writeRow` -/

@[simp] theorem State.writeRow_bmp (s : State) (r : Fin 16) (v : Row) :
    (s.writeRow r v).bmp = s.bmp.set r v := rfl
@[simp] theorem State.writeRow_input (s : State) (r : Fin 16) (v : Row) :
    (s.writeRow r v).input = s.input := rfl
@[simp] theorem State.writeRow_output (s : State) (r : Fin 16) (v : Row) :
    (s.writeRow r v).output = s.output := rfl
@[simp] theorem State.writeRow_status (s : State) (r : Fin 16) (v : Row) :
    (s.writeRow r v).status = s.status := rfl
@[simp] theorem State.writeRow_resetLine (s : State) (r : Fin 16) (v : Row) :
    (s.writeRow r v).resetLine = s.resetLine := rfl
@[simp] theorem State.writeRow_cfg (s : State) (r : Fin 16) (v : Row) :
    (s.writeRow r v).cfg = s.cfg := rfl
@[simp] theorem State.writeRow_pending (s : State) (r : Fin 16) (v : Row) :
    (s.writeRow r v).pending = s.pending := rfl
@[simp] theorem State.writeRow_responses (s : State) (r : Fin 16) (v : Row) :
    (s.writeRow r v).responses = s.responses := rfl

/-! ### `State.respond` -/

@[simp] theorem State.respond_bmp (s : State) (r : Response) :
    (s.respond r).bmp = s.bmp := rfl
@[simp] theorem State.respond_input (s : State) (r : Response) :
    (s.respond r).input = s.input := rfl
@[simp] theorem State.respond_output (s : State) (r : Response) :
    (s.respond r).output = s.output := rfl
@[simp] theorem State.respond_status (s : State) (r : Response) :
    (s.respond r).status = s.status := rfl
@[simp] theorem State.respond_resetLine (s : State) (r : Response) :
    (s.respond r).resetLine = s.resetLine := rfl
@[simp] theorem State.respond_cfg (s : State) (r : Response) :
    (s.respond r).cfg = s.cfg := rfl
@[simp] theorem State.respond_pending (s : State) (r : Response) :
    (s.respond r).pending = s.pending := rfl
@[simp] theorem State.respond_responses (s : State) (r : Response) :
    (s.respond r).responses = s.responses ++ [r] := rfl

/-! ### `State.withFetchWord` -/

@[simp] theorem State.withFetchWord_bmp (s : State) (n w : Nat) :
    (s.withFetchWord n w).bmp = s.bmp := rfl
@[simp] theorem State.withFetchWord_input (s : State) (n w : Nat) :
    (s.withFetchWord n w).input = s.input := rfl
@[simp] theorem State.withFetchWord_output (s : State) (n w : Nat) :
    (s.withFetchWord n w).output = s.output := rfl
@[simp] theorem State.withFetchWord_status (s : State) (n w : Nat) :
    (s.withFetchWord n w).status = s.status := rfl
@[simp] theorem State.withFetchWord_resetLine (s : State) (n w : Nat) :
    (s.withFetchWord n w).resetLine = false := rfl
@[simp] theorem State.withFetchWord_cfg (s : State) (n w : Nat) :
    (s.withFetchWord n w).cfg = s.cfg := rfl
@[simp] theorem State.withFetchWord_pending (s : State) (n w : Nat) :
    (s.withFetchWord n w).pending = .write 0x0040 4 (BitVec.ofNat 32 w) :: s.pending := rfl
@[simp] theorem State.withFetchWord_responses (s : State) (n w : Nat) :
    (s.withFetchWord n w).responses = s.responses := rfl

/-! ### `State.withPending` -/

@[simp] theorem State.withPending_bmp (s : State) (rest : List HostInput) :
    (s.withPending rest).bmp = s.bmp := rfl
@[simp] theorem State.withPending_input (s : State) (rest : List HostInput) :
    (s.withPending rest).input = s.input := rfl
@[simp] theorem State.withPending_output (s : State) (rest : List HostInput) :
    (s.withPending rest).output = s.output := rfl
@[simp] theorem State.withPending_status (s : State) (rest : List HostInput) :
    (s.withPending rest).status = s.status := rfl
@[simp] theorem State.withPending_resetLine (s : State) (rest : List HostInput) :
    (s.withPending rest).resetLine = s.resetLine := rfl
@[simp] theorem State.withPending_cfg (s : State) (rest : List HostInput) :
    (s.withPending rest).cfg = s.cfg := rfl
@[simp] theorem State.withPending_pending (s : State) (rest : List HostInput) :
    (s.withPending rest).pending = rest := rfl
@[simp] theorem State.withPending_responses (s : State) (rest : List HostInput) :
    (s.withPending rest).responses = s.responses := rfl

/-! ### `Status.withResult` -/

@[simp] theorem Status.withResult_err (f : Status) (err f128 carr lm mt : Bool) :
    (f.withResult err f128 carr lm mt).err = err := rfl
@[simp] theorem Status.withResult_f128 (f : Status) (err f128 carr lm mt : Bool) :
    (f.withResult err f128 carr lm mt).f128 = f128 := rfl
@[simp] theorem Status.withResult_carr (f : Status) (err f128 carr lm mt : Bool) :
    (f.withResult err f128 carr lm mt).carr = carr := rfl
@[simp] theorem Status.withResult_lm (f : Status) (err f128 carr lm mt : Bool) :
    (f.withResult err f128 carr lm mt).lm = lm := rfl
@[simp] theorem Status.withResult_mt (f : Status) (err f128 carr lm mt : Bool) :
    (f.withResult err f128 carr lm mt).mt = mt := rfl
@[simp] theorem Status.withResult_iov (f : Status) (err f128 carr lm mt : Bool) :
    (f.withResult err f128 carr lm mt).iov = f.iov := rfl

/-! ### `State.pushByte` (10_state.md rule R20) -/

theorem State.pushByte_of_room (s : State) (w : Row) (h : s.input.length < s.cfg.inCap) :
    s.pushByte w = { s with input := s.input ++ [w.setWidth 8] } := if_pos h

theorem State.pushByte_of_full (s : State) (w : Row) (h : ¬s.input.length < s.cfg.inCap) :
    s.pushByte w = { s with status := { s.status with iov := true } } := if_neg h

@[simp] theorem State.pushByte_bmp (s : State) (w : Row) : (s.pushByte w).bmp = s.bmp := by
  unfold State.pushByte
  split <;> rfl
@[simp] theorem State.pushByte_output (s : State) (w : Row) : (s.pushByte w).output = s.output := by
  unfold State.pushByte
  split <;> rfl
@[simp] theorem State.pushByte_resetLine (s : State) (w : Row) : (s.pushByte w).resetLine = s.resetLine := by
  unfold State.pushByte
  split <;> rfl
@[simp] theorem State.pushByte_cfg (s : State) (w : Row) : (s.pushByte w).cfg = s.cfg := by
  unfold State.pushByte
  split <;> rfl
@[simp] theorem State.pushByte_pending (s : State) (w : Row) : (s.pushByte w).pending = s.pending := by
  unfold State.pushByte
  split <;> rfl
@[simp] theorem State.pushByte_responses (s : State) (w : Row) : (s.pushByte w).responses = s.responses := by
  unfold State.pushByte
  split <;> rfl

/-! ### `State.driveReset` (70_reset_and_hazards.md rule R185) -/

theorem State.driveReset_assert (s : State) : s.driveReset true = { s with resetLine := true } := rfl

theorem State.driveReset_release (s : State) (h : s.resetLine = true) :
    s.driveReset false = { s.toReset with resetLine := false } := by
  simp [State.driveReset, h]

theorem State.driveReset_idle (s : State) (h : s.resetLine = false) : s.driveReset false = s := by
  simp [State.driveReset, h]

end Sys2Proof.Machine
end

