-- ==== Sys2Proof/Laws/Step.lean ====
section
/-! SUPPORT. What a command, a host access and a step can do, said once: later proofs cite these and do not unfold
`exec`, `memWrite` or `step`. -/

namespace Sys2Proof.Machine

/-! ### Commands -/

@[simp] theorem exec_nop (sp rn ib zp : Bool) (s : State) :
    exec (.nop sp rn ib zp) s = execNop s := rfl
@[simp] theorem exec_enc128 (sp rn ib zp : Bool) (s : State) :
    exec (.enc128 sp rn ib zp) s = execEnc128 sp rn ib s := rfl
@[simp] theorem exec_dec128 (sp rn ib zp : Bool) (s : State) :
    exec (.dec128 sp rn ib zp) s = execDec128 sp s := rfl
@[simp] theorem exec_enc64 (sp rn ib zp : Bool) (s : State) :
    exec (.enc64 sp rn ib zp) s = execEnc64 s := rfl
@[simp] theorem exec_dec64 (sp rn ib zp : Bool) (s : State) :
    exec (.dec64 sp rn ib zp) s = execDec64 s := rfl
@[simp] theorem exec_enctok (sp rn ib zp : Bool) (s : State) :
    exec (.enctok sp rn ib zp) s = execEnctok zp s := rfl
@[simp] theorem exec_dectok (sp rn ib zp : Bool) (s : State) :
    exec (.dectok sp rn ib zp) s = execDectok s := rfl
@[simp] theorem exec_encleg (sp rn ib zp : Bool) (s : State) :
    exec (.encleg sp rn ib zp) s = execEncleg s := rfl
@[simp] theorem exec_tokenize (sp rn ib zp : Bool) (s : State) :
    exec (.tokenize sp rn ib zp) s = execTokenize s := rfl
@[simp] theorem exec_decauto (sp rn ib zp : Bool) (s : State) :
    exec (.decauto sp rn ib zp) s = execDecauto s := rfl
@[simp] theorem exec_classify (sp rn ib zp : Bool) (s : State) :
    exec (.classify sp rn ib zp) s = execClassify s := rfl
@[simp] theorem exec_scanc (sp rn ib zp : Bool) (s : State) :
    exec (.scanc sp rn ib zp) s = execScanc s := rfl
@[simp] theorem exec_line (sp rn ib zp : Bool) (s : State) :
    exec (.line sp rn ib zp) s = execLine s := rfl
@[simp] theorem exec_clrin (sp rn ib zp : Bool) (s : State) :
    exec (.clrin sp rn ib zp) s = execClrin s := rfl
@[simp] theorem exec_illegal0E (sp rn ib zp : Bool) (s : State) :
    exec (.illegal0E sp rn ib zp) s = execIllegal0E s := rfl
@[simp] theorem exec_srst (sp rn ib zp : Bool) (s : State) :
    exec (.srst sp rn ib zp) s = execSrst s := rfl

/-- Every command goes on, and writes nothing but `BMP`, `IN`, `OUT` and STATUS. -/
theorem exec_next (i : Instr) (s : State) :
    ∃ (b : Bitmap) (x o : Bytes) (f : Status),
      exec i s = .next { s with bmp := b, input := x, output := o, status := f } := by
  cases i <;> exact ⟨_, _, _, _, rfl⟩

/-- The field form of `exec_next`, for a command that answered a next state. -/
theorem exec_keeps (i : Instr) (s t : State) (h : exec i s = .next t) :
    t.resetLine = s.resetLine ∧ t.cfg = s.cfg ∧ t.pending = s.pending ∧ t.responses = s.responses := by
  obtain ⟨b, x, o, f, hx⟩ := exec_next i s
  rw [hx] at h
  cases h
  exact ⟨rfl, rfl, rfl, rfl⟩

/-! ### The host port -/

theorem answer_next (r : Response) (s : State) : answer r (.next s) = .next (s.respond r) := rfl

theorem rowAddr?_row (r : Fin 16) : rowAddr? (4 * r.val) 4 = some r := by
  have : ∀ r : Fin 16, rowAddr? (4 * r.val) 4 = some r := by decide
  exact this r

theorem rowAddr?_some {addr size : Nat} {r : Fin 16} (h : rowAddr? addr size = some r) :
    size = 4 ∧ addr = 4 * r.val := by
  unfold rowAddr? at h
  by_cases hc : size = 4 ∧ addr % 4 = 0 ∧ addr < 0x0040
  · rw [dif_pos hc] at h
    cases h
    exact ⟨hc.1, by simp only; omega⟩
  · rw [dif_neg hc] at h
    cases h

theorem rowAddr?_none {addr size : Nat} (h : ¬(size = 4 ∧ addr % 4 = 0 ∧ addr < 0x0040)) :
    rowAddr? addr size = none := by
  unfold rowAddr?
  rw [dif_neg h]

theorem rowAddr?_none_iff {addr size : Nat} :
    rowAddr? addr size = none ↔ ¬(size = 4 ∧ addr % 4 = 0 ∧ addr < 0x0040) := by
  unfold rowAddr?
  split <;> simp_all

/-- Everything a host write can do (20_memory.md rule R31). -/
theorem memWrite_cases (s : State) (addr size : Nat) (v : Row) :
    (∃ r : Fin 16, size = 4 ∧ addr = 4 * r.val ∧
      memWrite s addr size v = .next ((s.writeRow r v).respond .ok)) ∨
    (size = 4 ∧ addr = 0x0040 ∧ memWrite s addr size v = answer .ok (exec (decode v) s)) ∨
    (size = 4 ∧ addr = 0x0050 ∧ memWrite s addr size v = .next ((s.pushByte v).respond .ok)) ∨
    ((HostInput.write addr size v).wf = false ∧ memWrite s addr size v = .next (s.respond .busError)) := by
  unfold memWrite
  cases hr : rowAddr? addr size with
  | some r =>
    obtain ⟨h4, ha⟩ := rowAddr?_some hr
    exact .inl ⟨r, h4, ha, rfl⟩
  | none =>
    rw [rowAddr?_none_iff] at hr
    simp only
    split
    · rename_i hc
      exact .inr (.inl ⟨hc.1, hc.2, rfl⟩)
    · split
      · rename_i hc
        exact .inr (.inr (.inl ⟨hc.1, hc.2, rfl⟩))
      · refine .inr (.inr (.inr ⟨?_, rfl⟩))
        simp only [HostInput.wf, Bool.and_eq_false_iff, Bool.or_eq_false_iff, beq_eq_false_iff_ne,
          decide_eq_false_iff_not]
        omega

theorem memRead_of_none (s : State) {addr size : Nat} (h : rowAddr? addr size = none) :
    s.memRead addr size =
      if size = 4 ∧ addr = 0x0044 then .okWord (statusWord s.status)
      else if size = 4 ∧ addr = 0x0048 then .okWord (BitVec.ofNat 32 s.input.length)
      else if size = 4 ∧ addr = 0x004C then .okWord (BitVec.ofNat 32 s.output.length)
      else if size = 1 ∧ 0x1000 ≤ addr ∧ addr < 0x2000 then .okByte (byteAt s.input (addr - 0x1000))
      else if size = 1 ∧ 0x2000 ≤ addr ∧ addr < 0x3000 then .okByte (byteAt s.output (addr - 0x2000))
      else .busError := by
  unfold State.memRead
  rw [h]

/-- A read that has no entry in the table is answered `BusError` (20_memory.md rules R31, R41). -/
theorem memRead_of_not_wf (s : State) (addr size : Nat) (h : (HostInput.read addr size).wf = false) :
    s.memRead addr size = .busError := by
  simp only [HostInput.wf, Bool.and_eq_false_iff, Bool.or_eq_false_iff, beq_eq_false_iff_ne,
    decide_eq_false_iff_not, bne_eq_false_iff_eq] at h
  rw [memRead_of_none s (rowAddr?_none (by omega)), if_neg (by omega), if_neg (by omega), if_neg (by omega),
    if_neg (by omega), if_neg (by omega)]

theorem memRead_row (s : State) (r : Fin 16) : s.memRead (4 * r.val) 4 = .okWord s.bmp[r] := by
  unfold State.memRead
  rw [rowAddr?_row]

theorem memRead_status (s : State) : s.memRead 0x0044 4 = .okWord (statusWord s.status) := rfl

theorem memRead_inlen (s : State) : s.memRead 0x0048 4 = .okWord (BitVec.ofNat 32 s.input.length) := rfl

theorem memRead_outlen (s : State) : s.memRead 0x004C 4 = .okWord (BitVec.ofNat 32 s.output.length) := rfl

theorem memRead_inWindow (s : State) (i : Nat) (hi : i < 4096) :
    s.memRead (0x1000 + i) 1 = .okByte (byteAt s.input i) := by
  rw [memRead_of_none s (rowAddr?_none (by omega)), if_neg (by omega), if_neg (by omega), if_neg (by omega),
    if_pos (by omega), Nat.add_sub_cancel_left]

theorem memRead_outWindow (s : State) (i : Nat) (hi : i < 4096) :
    s.memRead (0x2000 + i) 1 = .okByte (byteAt s.output i) := by
  rw [memRead_of_none s (rowAddr?_none (by omega)), if_neg (by omega), if_neg (by omega), if_neg (by omega),
    if_neg (by omega), if_pos (by omega), Nat.add_sub_cancel_left]

/-! ### A step -/

theorem step_idle (s : State) (h : s.pending = []) : step s = .next s := by
  unfold step
  rw [h]

theorem step_serve (s : State) (a : HostInput) (rest : List HostInput) (h : s.pending = a :: rest) :
    step s = serveInput (s.withPending rest) a := by
  unfold step
  rw [h]

theorem serveInput_read (s : State) (addr size : Nat) (h : s.resetLine = false) :
    serveInput s (.read addr size) = .next (s.respond (s.memRead addr size)) := by
  simp [serveInput, h, answer]

theorem serveInput_write (s : State) (addr size : Nat) (v : Row) (h : s.resetLine = false) :
    serveInput s (.write addr size v) = memWrite s addr size v := by
  simp [serveInput, h]

theorem step_read (s : State) (addr size : Nat) (rest : List HostInput)
    (hp : s.pending = .read addr size :: rest) (hr : s.resetLine = false) :
    step s = .next { s with pending := rest, responses := s.responses ++ [s.memRead addr size] } := by
  rw [step_serve s _ rest hp, serveInput_read (s.withPending rest) _ _ hr]
  rfl

theorem step_write (s : State) (addr size : Nat) (v : Row) (rest : List HostInput)
    (hp : s.pending = .write addr size v :: rest) (hr : s.resetLine = false) :
    step s = memWrite (s.withPending rest) addr size v := by
  rw [step_serve s _ rest hp, serveInput_write (s.withPending rest) _ _ _ hr]

/-- Everything a step that goes on can have done. -/
theorem step_cases (s t : State) (h : step s = .next t) :
    (s.pending = [] ∧ t = s) ∨
    ∃ (a : HostInput) (rest : List HostInput), s.pending = a :: rest ∧
      ((∃ b, a = .resetInput b ∧ t = (s.withPending rest).driveReset b) ∨
       (s.resetLine = false ∧ ∃ addr size, a = .read addr size ∧
          t = (s.withPending rest).respond (s.memRead addr size)) ∨
       (s.resetLine = false ∧ ∃ (r : Fin 16) (v : Row), a = .write (4 * r.val) 4 v ∧
          t = ((s.withPending rest).writeRow r v).respond .ok) ∨
       (s.resetLine = false ∧ ∃ v u, a = .write 0x0040 4 v ∧ exec (decode v) (s.withPending rest) = .next u ∧
          t = u.respond .ok) ∨
       (s.resetLine = false ∧ ∃ v, a = .write 0x0050 4 v ∧
          t = ((s.withPending rest).pushByte v).respond .ok) ∨
       (s.resetLine = false ∧ a.wf = false ∧ ∃ addr size v, a = .write addr size v ∧
          t = (s.withPending rest).respond .busError)) := by
  cases hp : s.pending with
  | nil =>
    rw [step_idle s hp] at h
    cases h
    exact .inl ⟨rfl, rfl⟩
  | cons a rest =>
    refine .inr ⟨a, rest, rfl, ?_⟩
    rw [step_serve s a rest hp] at h
    cases a with
    | resetInput b =>
      cases h
      exact .inl ⟨b, rfl, rfl⟩
    | read addr size =>
      by_cases hr : s.resetLine = true
      · simp [serveInput, hr] at h
      · rw [Bool.not_eq_true] at hr
        rw [serveInput_read (s.withPending rest) _ _ hr] at h
        cases h
        exact .inr (.inl ⟨hr, addr, size, rfl, rfl⟩)
    | write addr size v =>
      by_cases hr : s.resetLine = true
      · simp [serveInput, hr] at h
      · rw [Bool.not_eq_true] at hr
        rw [serveInput_write (s.withPending rest) _ _ _ hr] at h
        rcases memWrite_cases (s.withPending rest) addr size v with
          ⟨r, rfl, rfl, hw⟩ | ⟨rfl, rfl, hw⟩ | ⟨rfl, rfl, hw⟩ | ⟨hwf, hw⟩
        · rw [hw] at h
          cases h
          exact .inr (.inr (.inl ⟨hr, r, v, rfl, rfl⟩))
        · obtain ⟨b, x, o, f, hx⟩ := exec_next (decode v) (s.withPending rest)
          rw [hw, hx] at h
          cases h
          exact .inr (.inr (.inr (.inl ⟨hr, v, _, rfl, hx, rfl⟩)))
        · rw [hw] at h
          cases h
          exact .inr (.inr (.inr (.inr (.inl ⟨hr, v, rfl, rfl⟩))))
        · rw [hw] at h
          cases h
          exact .inr (.inr (.inr (.inr (.inr ⟨hr, hwf, addr, size, v, rfl, rfl⟩))))

end Sys2Proof.Machine
end

