-- ==== Sys2Proof/Tests/Slice0.lean ====
section
/-! SUPPORT. Tests of the model and witnesses for the statements. Every expected value is from spec/: the vectors of
95_test_vectors.md (their numbers stand in the comments) or the examples of the rule named. -/

open Sys2Proof Sys2Proof.Machine Sys2Proof.Spec

namespace Sys2Proof.Tests

/-! ### Helpers -/

/-- The bytes of an ASCII text. -/
def text (s : String) : Bytes := s.toList.map fun c => BitVec.ofNat 8 c.toNat

/-- The bitmap G of 95_test_vectors.md. -/
def g : Bitmap :=
  #v[0x00000001, 0x80000000, 0x1FE07FFE, 0x0000000F, 0x12345678, 0xFFFFFFFF, 0, 0, 0, 0, 0, 0, 0, 0, 0, 0x80000001]

/-- The reset state with bitmap G and the given input. -/
def start (t : Bytes) : State := { State.reset with bmp := g, input := t }

/-- The reset state with one host input pending. -/
def host (a : HostInput) : State := { State.reset with pending := [a] }

/-- The state a command word leaves, and `d` where it goes nowhere. -/
def after (w : Row) (s : State) : State :=
  match exec (decode w) s with
  | .next t => t
  | .fault _ => s
  | .refused _ => s

/-- The state one step leaves. -/
def stepped (s : State) : State :=
  match step s with
  | .next t => t
  | .fault _ => s
  | .refused _ => s

/-- STATUS of a state as a number. -/
def flags (s : State) : Nat := (statusWord s.status).toNat

/-- A bitmap that is zero but for its first row. -/
def rowZero (v : Row) : Bitmap := blankBitmap.set 0 v

/-! ### WellFormed: an ill-formed term for each check -/

theorem test_config_default_wf : Config.default.wf = true := by decide
theorem test_config_refuses_small_inCap :
    { Config.default with inCap := 767 }.wf = false ∧ { Config.default with inCap := 768 }.wf = true := by decide
theorem test_config_refuses_large_inCap :
    { Config.default with inCap := 4097, outCap := 4096 }.wf = false ∧
    { Config.default with inCap := 4096, outCap := 4096 }.wf = true := by decide
theorem test_config_refuses_small_outCap : { Config.default with inCap := 768, outCap := 142 }.wf = false := by decide
theorem test_config_refuses_outCap_below_half :
    { Config.default with inCap := 1023, outCap := 511 }.wf = false ∧
    { Config.default with inCap := 1023, outCap := 512 }.wf = true := by decide
theorem test_config_refuses_large_outCap : { Config.default with outCap := 4097 }.wf = false := by decide
/-- Vector Z19: a wrong size. -/
theorem test_access_refuses_size :
    (HostInput.read 0x0000 1).wf = false ∧ (HostInput.read 0x0000 2).wf = false ∧
    (HostInput.write 0x0040 1 3).wf = false := by decide
/-- Vector Z19: a misaligned address. -/
theorem test_access_refuses_misaligned :
    (HostInput.read 0x0002 4).wf = false ∧ (HostInput.write 0x0051 4 0).wf = false := by decide
/-- Vectors Z17, Z18, Z21: a direction the address does not have. -/
theorem test_access_refuses_direction :
    (HostInput.read 0x0040 4).wf = false ∧ (HostInput.read 0x0050 4).wf = false ∧
    (HostInput.write 0x0044 4 0).wf = false ∧ (HostInput.write 0x1000 1 0x41).wf = false := by decide
/-- Vectors Z20, Z22: a reserved address, a word in a window, an address outside the map. -/
theorem test_access_refuses_address :
    (HostInput.read 0x0054 4).wf = false ∧ (HostInput.read 0x2000 4).wf = false ∧
    (HostInput.read 0x3000 1).wf = false ∧ (HostInput.read 0x0FFF 1).wf = false ∧
    (HostInput.read 0x4000 4).wf = false := by decide
theorem test_access_admits_every_edge :
    (HostInput.read 0x0000 4).wf = true ∧ (HostInput.read 0x004C 4).wf = true ∧ (HostInput.read 0x1000 1).wf = true ∧
    (HostInput.read 0x2FFF 1).wf = true ∧ (HostInput.write 0x003C 4 0).wf = true ∧
    (HostInput.write 0x0050 4 0).wf = true := by decide

/-! ### Decoding: words written out from 30_encoding.md rules R52, R54, R56 -/

/-- `0xE0` is ZP, IB, RN and opcode 0. -/
theorem test_decode_nop : decode 0b11100000 = .nop false true true true := by decide
/-- ENC128.SP.RN.IB is 0x71. -/
theorem test_decode_enc128 : decode 0b01110001 = .enc128 true true true false := by decide
theorem test_decode_enc128_rn : decode 0b00100001 = .enc128 false true false false := by decide
/-- DEC128.SP is 0x12. -/
theorem test_decode_dec128 : decode 0b00010010 = .dec128 true false false false := by decide
/-- Vector Z8. -/
theorem test_decode_ignores_high_bits : decode 0xABCDEF03 = .enc64 false false false false := by decide
/-- DEC64.SP is 0x14 (rule R56). -/
theorem test_decode_dec64 : decode 0x14 = .dec64 true false false false := by decide
/-- ENCTOK.ZP is 0x85. -/
theorem test_decode_enctok : decode 0b10000101 = .enctok false false false true := by decide
theorem test_decode_dectok : decode 0x06 = .dectok false false false false := by decide
theorem test_decode_encleg : decode 0x07 = .encleg false false false false := by decide
theorem test_decode_tokenize : decode 0x08 = .tokenize false false false false := by decide
theorem test_decode_decauto : decode 0x09 = .decauto false false false false := by decide
theorem test_decode_classify : decode 0x0A = .classify false false false false := by decide
theorem test_decode_scanc : decode 0x0B = .scanc false false false false := by decide
theorem test_decode_line : decode 0x4C = .line false false true false := by decide
theorem test_decode_clrin : decode 0x0D = .clrin false false false false := by decide
/-- Vector Z3. -/
theorem test_decode_unassigned : decode 0xFE = .illegal0E true true true true := by decide
theorem test_decode_srst : decode 0x0F = .srst false false false false := by decide
theorem test_encode_words :
    encode (.enc128 true true true false) = 0x71 ∧ encode (.dec128 true false false false) = 0x12 ∧
    encode (.enctok false false false true) = 0x85 ∧ encode (.illegal0E true true true true) = 0xFE := by decide
theorem test_decodeTableWord : decodeTableWord 8 0x85 = some (.enctok false false false true) := by decide

/-! ### Commands -/

/-- Vector F2, rows 2 and 4. -/
theorem test_enc128_sp :
    (((after 0x11 (start [])).output.drop 16).take 8 = [0x0F, 0x0E, 0x07, 0x0F, 0x0E, 0x00, 0x01, 0x0F]) ∧
    (((after 0x11 (start [])).output.drop 32).take 8 = [0x07, 0x08, 0x05, 0x06, 0x03, 0x04, 0x01, 0x02]) := by decide
/-- Vector F8, rows 2 and 4. -/
theorem test_enc128_sp_rn_ib :
    (((after 0x71 (start [])).output.drop 16).take 8 = [0x00, 0x08, 0x01, 0x00, 0x08, 0x0F, 0x07, 0x00]) ∧
    (((after 0x71 (start [])).output.drop 32).take 8 = [0x01, 0x0E, 0x05, 0x09, 0x03, 0x0D, 0x07, 0x0B]) := by decide
/-- Vectors F21, F22. -/
theorem test_dec128_high_nibbles :
    (after 0x02 (start [0xF3, 0xA5])).bmp = rowZero 0x53 ∧ flags (after 0x02 (start [0xF3, 0xA5])) = 0x0A := by decide
theorem test_dec128_sp :
    (after 0x12 (start [1, 2, 3, 4, 5, 6, 7, 8, 9])).bmp = (rowZero 0x78563412).set 1 0x90 := by decide
/-- Vector X1, rows 2 and 15. -/
theorem test_enc64 :
    (((after 0x03 (start [])).output.drop 8).take 4 = [0xFE, 0x7F, 0xE0, 0x1F]) ∧
    ((after 0x03 (start [])).output.drop 60 = [0x01, 0x00, 0x00, 0x80]) := by decide
/-- Vector X5. -/
theorem test_dec64 :
    (after 0x04 (start [0xFE, 0x7F, 0xE0, 0x1F, 0xAA])).bmp = (rowZero 0x1FE07FFE).set 1 0xAA ∧
    flags (after 0x04 (start [0xFE, 0x7F, 0xE0, 0x1F, 0xAA])) = 0x08 := by decide
/-- Vector T1. -/
theorem test_enctok :
    (after 0x05 (start [])).output =
      text "01000000 00000080 FE7FE01F 0F000000 78563412 FFFFFFFF 0 0 0 0 0 0 0 0 0 01000080" := by decide
set_option maxRecDepth 20000 in
/-- Vector T4: the length and the first two tokens. -/
theorem test_enctok_zp :
    (after 0x85 State.reset).output.length = 143 ∧
    (after 0x85 State.reset).output.take 18 = text "00000000 00000000 " := by decide
/-- Vectors T16, T21. -/
theorem test_dectok_trunc_last :
    (after 0x06 { start (text "123456789") with cfg := { Config.default with truncKeep := .last } }).bmp =
      rowZero 0x89674523 := by decide
theorem test_dectok_malformed :
    (after 0x06 (start (text "zz 00000001"))).bmp = blankBitmap.set 1 0x01000000 ∧
    flags (after 0x06 (start (text "zz 00000001"))) = 0x18 := by decide
/-- Vector Y4. -/
theorem test_encleg :
    (after 0x07 { State.reset with bmp := rowZero 0x100F0900 }).output.take 12 = text "0 9 F 100 0 " := by decide
/-- Vectors K5, K7. -/
theorem test_tokenize_disputed : (after 0x08 (start (text "1 801"))).output = [0x01, 0x80, 0x01] := by decide
theorem test_tokenize_malformed :
    (after 0x08 (start (text "0 zz 1"))).output = [0x00, 0x01] ∧
    flags (after 0x08 (start (text "0 zz 1"))) = 0x10 := by decide
set_option maxRecDepth 20000 in
/-- Vectors A6, A7: the threshold. -/
theorem test_decauto_127 :
    (after 0x09 (start (List.replicate 127 0x21))).bmp = Vector.replicate 16 0x21212121 ∧
    flags (after 0x09 (start (List.replicate 127 0x21))) = 0x08 := by decide
set_option maxRecDepth 20000 in
theorem test_decauto_128 :
    (after 0x09 (start (1 :: List.replicate 127 0))).bmp = rowZero 0x10 ∧
    flags (after 0x09 (start (1 :: List.replicate 127 0))) = 0x02 := by decide
/-- Vectors Q2, Q3. -/
theorem test_classify_letters :
    (after 0x0A (start (text "hello world"))).bmp = rowZero 0x0D0E ∧
    flags (after 0x0A (start (text "hello world"))) = 0x08 := by decide
theorem test_classify_nothing :
    (after 0x0A (start (text "zz"))).bmp = blankBitmap ∧ flags (after 0x0A (start (text "zz"))) = 0x18 := by decide
/-- Vector N13, both values of `CARR_STRICT`. -/
theorem test_scanc_strict :
    (after 0x0B (start (text "0x120x34"))).output = [0x34] ∧ flags (after 0x0B (start (text "0x120x34"))) = 0x04 := by
  decide
theorem test_scanc_not_strict :
    (after 0x0B { start (text "0x120x34") with cfg := { Config.default with carrStrict := false } }).output =
      [0x12, 0x34] := by decide
/-- Vectors L5, L7. -/
theorem test_line_literal_wins :
    (after 0x0C (start (text "FE7F 0x01 1234"))).bmp = rowZero 1 ∧
    flags (after 0x0C (start (text "FE7F 0x01 1234"))) = 0x0C := by decide
theorem test_line_legacy_path :
    (after 0x0C (start (text "0x123 zz"))).bmp = rowZero 0x2301 ∧
    flags (after 0x0C (start (text "0x123 zz"))) = 0x18 := by decide
/-- Vector Z1: NOP keeps the flags. -/
theorem test_nop_keeps_flags : after 0x00 (after 0x04 (start [])) = after 0x04 (start []) := by decide
/-- Vector Z6. -/
theorem test_clrin :
    after 0x0D { start (text "12345") with status := { Status.clear with iov := true, lm := true } } = start [] := by
  decide
/-- Vector Z2, with IOV set: STATUS is 0x21. -/
theorem test_illegal :
    after 0x0E { start [1] with status := { Status.clear with iov := true, mt := true } } =
      { start [1] with status := { Status.clear with iov := true, err := true } } := by decide
/-- Vector Z7. -/
theorem test_srst :
    after 0x0F { start (text "12345") with output := [1], status := { Status.clear with iov := true, lm := true } } =
      State.reset := by decide

/-! ### The host port -/

/-- Vector Z15. -/
theorem test_push_low_byte : (stepped (host (.write 0x0050 4 0x141))).input = [0x41] := by decide
set_option maxRecDepth 20000 in
/-- Vector Z12, with a buffer filled to its capacity. -/
theorem test_push_full :
    flags (stepped { host (.write 0x0050 4 0x42) with input := List.replicate 1024 0x41 }) = 0x20 := by decide
/-- Vector Z23. -/
theorem test_row_write :
    stepped (host (.write 0x000C 4 0xFFFFFFF0)) =
      { State.reset with bmp := blankBitmap.set 3 0xFFFFFFF0, responses := [.ok] } := by decide
/-- Vector Z16. -/
theorem test_window_reads :
    let s := { State.reset with output := [0x01, 0x80, 0x01] }
    s.memRead 0x2002 1 = .okByte 0x01 ∧ s.memRead 0x2003 1 = .okByte 0 ∧ s.memRead 0x2FFF 1 = .okByte 0 := by decide
/-- Program P6: the second access is answered `BusError`. -/
theorem test_bus_error :
    stepped (host (.write 0x0002 4 0xFFFFFFFF)) = { State.reset with responses := [.busError] } := by decide
theorem test_reset_line_refuses :
    step { host (.read 0x0044 4) with resetLine := true } = .refused .accessDuringReset := by rfl
theorem test_fetch_word : stepped (State.reset.withFetchWord 8 0x0E) =
    { State.reset with status := { Status.clear with err := true }, responses := [.ok] } := by decide

/-! ### Witnesses: for each statement with hypotheses, states and operands that meet them together, at boundary values -/

/-- The hypotheses of `UnusedOptionBitsHaveNoEffect`. -/
abbrev SameUsedBits (w w' : Row) : Prop :=
  opcode w = opcode w' ∧ (opcode w = 0x1 ∨ opcode w = 0x2 → w.getLsbD 4 = w'.getLsbD 4) ∧
  (opcode w = 0x1 → w.getLsbD 5 = w'.getLsbD 5 ∧ w.getLsbD 6 = w'.getLsbD 6) ∧
  (opcode w = 0x5 → w.getLsbD 7 = w'.getLsbD 7)

theorem witness_UnusedOptionBits :
    SameUsedBits 0x71 0xF1 ∧ SameUsedBits 0x12 0xFFFFFFF2 ∧ SameUsedBits 0x85 0xF5 ∧ SameUsedBits 0x03 0xABCDEFF3 ∧
    SameUsedBits 0x1E 0x0E := by decide

/-- Row 15, group 7, the last pixel and the first bit of the high nibble (vector F1). -/
theorem witness_Enc128 :
    (7 : Nat) < 8 ∧ bitAt (after 0x01 (start [])).output (8 * 15 + place false 7) 3 = true ∧
    bitAt (after 0x01 (start [])).output (8 * 15 + place false 7) 4 = false := by decide

set_option maxRecDepth 20000 in
/-- Vector F24: row 15, group 7, pixel 3 and group 6, pixel 0 of a full frame. -/
theorem witness_Dec128 :
    let y := List.replicate 120 0 ++ [1, 2, 3, 4, 5, 6, 7, 8]
    y.length = 128 ∧ (7 : Nat) < 8 ∧ (3 : Nat) < 4 ∧ bitAt y (8 * 15 + place false 7) 3 = true ∧
    (after 0x02 (start y)).bmp[15].getLsbD (4 * 7 + 3) = true := by decide

/-- Bitmaps that come back under RN alone and under RN with IB, and one that does not (rule R96). -/
theorem witness_ExportAsymmetry :
    (∀ (r : Fin 16) (k : Nat), k < 8 →
      (Vector.replicate 16 0x0069F690 : Bitmap)[r].toNat / 16 ^ k % 16 ∈ [0x0, 0x6, 0x9, 0xF]) ∧
    (∀ (r : Fin 16) (k : Nat), k < 8 →
      (Vector.replicate 16 0x35AC35AC : Bitmap)[r].toNat / 16 ^ k % 16 ∈ [0x3, 0x5, 0xA, 0xC]) ∧
    ¬∀ (r : Fin 16) (k : Nat), k < 8 → g[r].toNat / 16 ^ k % 16 ∈ [0x0, 0x6, 0x9, 0xF] := by decide

/-- Vector F14: row 4, group 7, pixel 1. -/
theorem witness_MismatchedSwap :
    (7 : Nat) < 8 ∧ (1 : Nat) < 4 ∧ g[4].getLsbD (4 * place true 7 + 1) = true := by decide

/-- Row 15, byte 3, bit 7 (vectors X1, X6). -/
theorem witness_Frame64 :
    (3 : Nat) < 4 ∧ (7 : Nat) < 8 ∧ bitAt (after 0x03 (start [])).output (4 * 15 + 3) 7 = true ∧
    (List.replicate 60 0 ++ [0x01, 0x00, 0x00, 0x80] : Bytes).length = 64 := by decide

/-- Sixteen row writes of the words of vector X5 are pending. -/
theorem witness_Dec64EqualsSixteenRowWrites :
    let t : Bytes := [0xFE, 0x7F, 0xE0, 0x1F, 0xAA]
    let p := (List.finRange 16).map fun r : Fin 16 => HostInput.write (4 * r.val) 4
      (BitVec.ofNat 32 ((t.getD (4 * r.val) 0).toNat + 2 ^ 8 * (t.getD (4 * r.val + 1) 0).toNat
        + 2 ^ 16 * (t.getD (4 * r.val + 2) 0).toNat + 2 ^ 24 * (t.getD (4 * r.val + 3) 0).toNat))
    { start t with pending := p }.resetLine = false ∧ p.take 2 = [.write 0 4 0x1FE07FFE, .write 4 4 0xAA] := by decide

/-- A zero row without ZP, a zero row with ZP, and the last byte of a row. -/
theorem witness_Enctok :
    (g[6] = 0 ∧ false = false) ∧ ¬(g[6] = 0 ∧ true = false) ∧ ¬(g[0] = 0 ∧ false = false) ∧ (3 : Nat) < 4 := by decide

/-- One token: row 0 has it, row 1 has none, and its last digit is digit 7. -/
theorem witness_Dectok :
    (tokens (text "1"))[0]? = some (text "1") ∧ (tokens (text "1")).length ≤ 1 ∧ (7 : Nat) < 8 := by decide

/-- Bytes 0x0F and 0x10 of vector Y4. -/
theorem witness_Encleg :
    (0x0F = (0x100F0900 : Row).toNat / 256 ^ 2 % 256 ∧ 0x0F < 0x10) ∧
    (0x10 = (0x100F0900 : Row).toNat / 256 ^ 3 % 256 ∧ 0x10 ≤ 0x10) := by decide

/-- Every kind of text the four clauses speak of. -/
theorem witness_Tokens :
    text "ab" ∈ tokens (text " ab ") ∧ (0x61 : Byte) ∈ text "ab" ∧ (∀ c ∈ text "  ", c.toNat ∈ [0x09, 0x0A, 0x0B, 0x0C, 0x0D, 0x20]) ∧
    (text "ab" ≠ [] ∧ ∀ c ∈ text "ab", ¬c.toNat ∈ [0x09, 0x0A, 0x0B, 0x0C, 0x0D, 0x20]) ∧ IsSpace 0x0D ∧ ¬IsSpace 0x0E := by
  refine ⟨by decide, by decide, by decide, by decide, ?_, ?_⟩ <;> unfold IsSpace <;> decide

/-- The ends of the three ranges of digits and the bytes next to them. -/
theorem witness_Digits :
    IsDigit 0x30 ∧ IsDigit 0x39 ∧ IsDigit 0x41 ∧ IsDigit 0x46 ∧ IsDigit 0x61 ∧ IsDigit 0x66 ∧ ¬IsDigit 0x2F ∧
    ¬IsDigit 0x3A ∧ ¬IsDigit 0x40 ∧ ¬IsDigit 0x47 ∧ ¬IsDigit 0x60 ∧ ¬IsDigit 0x67 := by
  refine ⟨?_, ?_, ?_, ?_, ?_, ?_, ?_, ?_, ?_, ?_, ?_, ?_⟩ <;> unfold IsDigit <;> decide

theorem witness_Strip :
    (0x46 : Byte) ∈ strip (text "zF") ∧ (∀ c ∈ text "0f", isHex c = true) ∧ ¬IsDigit 0x78 := by
  refine ⟨by decide, by decide, ?_⟩
  unfold IsDigit; decide

/-- `"801"`: the pair 0 is whole, the digit 2 is alone. -/
theorem witness_Pairs :
    (∀ c ∈ text "801", (0x30 ≤ c.toNat ∧ c.toNat ≤ 0x39)) ∧ 2 * 0 + 1 < (text "801").length ∧
    2 * 1 + 1 = (text "801").length ∧ pairs (text "801") = [0x80, 0x01] := by decide

/-- A token without whitespace, one without a digit, and a separator. -/
theorem witness_Tokenizer :
    IsSpace 0x20 ∧ (∀ c ∈ text "zz", ¬IsSpace c) ∧ ∀ c ∈ text "zz", ¬IsDigit c := by
  unfold IsSpace IsDigit; decide

/-- The state of `TokenizeWritesLegacyBytes` and of `StepKeepsCapacities`. -/
theorem witness_Inv : (host (.write 0x0040 4 0x08)).Inv ∧ step (host (.write 0x0040 4 0x08)) =
    .next (stepped (host (.write 0x0040 4 0x08))) := ⟨⟨by decide, by decide, by decide⟩, rfl⟩

set_option maxRecDepth 20000 in
/-- Byte sequences on both sides of the threshold. -/
theorem witness_Classified :
    128 ≤ (List.replicate 128 0 : Bytes).length ∧ (List.replicate 127 0 : Bytes).length < 128 := by decide

/-- A row order for which CLASSIFY reads a TokenLine, and one for which it does not (vector Q10). -/
theorem witness_ClassifyOnTokenLine :
    (∀ r r' : Fin 16, r < r' → (rowZero 1)[r] = 0 → (rowZero 1)[r'] = 0) ∧
    ¬∀ r r' : Fin 16, r < r' → g[r] = 0 → g[r'] = 0 := by decide

/-- A match at the end of the text, one that a third digit spoils under CARR_STRICT, and a text that is too short. -/
theorem witness_CArray :
    (IsDigit 0x31 ∧ IsDigit 0x46 ∧ ∀ e ∈ ([] : Bytes).head?, ¬IsDigit e) ∧
    ¬(true = true → ∀ e ∈ (text "3").head?, ¬IsDigit e) ∧ (text "0x1").length < 4 := by
  unfold IsDigit; decide

/-- A text with a literal and one without. -/
theorem witness_Line :
    carr true (text "FE 0x01") = [0x01] ∧ carr true (text "FE") = [] ∧ tokz (text "FE") = [0xFE] := by decide

/-- A host write of an opcode 0xE with all options and garbage above. -/
theorem witness_Unassigned :
    (host (.write 0x0040 4 0xABCDEFFE)).resetLine = false ∧ opcode 0xABCDEFFE = 0xE ∧
    (host (.write 0x0040 4 0xABCDEFFE)).pending = [.write 0x0040 4 0xABCDEFFE] ∧
    (host (.write 0x0040 4 0xABCDEFFE)).status.err = false ∧
    (stepped (host (.write 0x0040 4 0xABCDEFFE))).status.err = true := by decide

/-- ERR is cleared by ENC64 (vector Z5) and by the release of reset. -/
theorem witness_ErrCleared :
    let f := { Status.clear with err := true }
    opcode 0x03 ∉ [0x0, 0xE] ∧ (stepped { host (.write 0x0040 4 0x03) with status := f }).status.err = false ∧
    (stepped { host (.resetInput false) with status := f, resetLine := true }).status.err = false := by decide

/-- The one pending input of `StepRunsDecodedCommand`, `CommandsNeverTrap` and `EveryRunCompletes`. -/
theorem witness_Command :
    (host (.write 0x0040 4 0x0F)).resetLine = false ∧
    (host (.write 0x0040 4 0x0F)).pending = .write 0x0040 4 0x0F :: [] ∧
    ∀ a ∈ (host (.write 0x0040 4 0x0F)).pending, a ≠ .resetInput true ∧ a ≠ .resetInput false := by decide

/-- Offsets at the ends of the windows, and reads that have no entry: next to a register, in a window, past the map. -/
theorem witness_ReadTable :
    (0 : Nat) < 4096 ∧ (4095 : Nat) < 4096 ∧ State.reset.memRead 0x0040 4 = .busError ∧
    State.reset.memRead 0x0050 4 = .busError ∧ State.reset.memRead 0x0FFF 1 = .busError ∧
    State.reset.memRead 0x3000 1 = .busError ∧ State.reset.memRead 0x1000 4 = .busError ∧
    State.reset.memRead 0x0044 1 = .busError := by decide

theorem witness_Read :
    (host (.read 0x2FFF 1)).resetLine = false ∧ (host (.read 0x2FFF 1)).pending = .read 0x2FFF 1 :: [] := by decide

/-- One access for each way to be malformed: size, size 1 below the windows, size 4 in a window, alignment, a reserved
address, past the windows. -/
theorem witness_Malformed :
    (host (.read 0x0000 2)).pending = .read 0x0000 2 :: [] ∧ (HostInput.read 0x0000 2).wf = false ∧
    ((2 : Nat) ≠ 1 ∧ (2 : Nat) ≠ 4) ∧ ((1 : Nat) = 1 ∧ 0x0FFF < 0x1000) ∧ ((4 : Nat) = 4 ∧ 0x1000 ≤ 0x1000) ∧
    ((4 : Nat) = 4 ∧ 0x0001 % 4 ≠ 0) ∧ (0x0054 ≤ 0x0054 ∧ 0x0054 < 0x1000) ∧ 0x3000 ≤ 0x3000 := by decide

/-- Rows 0 and 15. -/
theorem witness_RowWrite :
    (host (.write (4 * (15 : Fin 16).val) 4 1)).resetLine = false ∧
    (host (.write (4 * (15 : Fin 16).val) 4 1)).pending = .write 0x003C 4 1 :: [] ∧ (0 : Fin 16) ≠ 15 := by decide

set_option maxRecDepth 20000 in
/-- `IN` with room for one byte, and `IN` full. -/
theorem witness_Inpush :
    (host (.write 0x0050 4 0x41)).pending = .write 0x0050 4 0x41 :: [] ∧
    (List.replicate 1023 0x41 : Bytes).length < State.reset.cfg.inCap ∧
    State.reset.cfg.inCap ≤ (List.replicate 1024 0x41 : Bytes).length := by decide

/-- Two pushes that fit and an access behind them. -/
theorem witness_Pushes :
    let s := { State.reset with pending := pushes [0x31, 0x32] ++ [HostInput.read 0x0044 4] }
    s.resetLine = false ∧ s.pending = [HostInput.write 0x0050 4 0x31, .write 0x0050 4 0x32, .read 0x0044 4] ∧
    s.input.length + 2 ≤ s.cfg.inCap := by decide

/-- Reset asserted, then released, and an access in between. -/
theorem witness_ResetInput :
    let s := { host (.resetInput false) with resetLine := true }
    let s' := { host (.read 0x0044 4) with resetLine := true }
    (s.resetLine = true ∧ s.pending = .resetInput false :: []) ∧
    (s'.resetLine = true ∧ s'.pending = .read 0x0044 4 :: [] ∧
      HostInput.read 0x0044 4 ≠ .resetInput true ∧ HostInput.read 0x0044 4 ≠ .resetInput false) := by decide

/-- A state that accepts its next input, and one that does not. -/
theorem witness_Accepting :
    (host (.read 0x0044 4)).Accepting ∧ ¬{ host (.read 0x0044 4) with resetLine := true }.Accepting := by
  constructor
  · exact .inl rfl
  · rintro (h | h)
    · exact absurd h (by decide)
    · obtain ⟨b, hb⟩ := h _ rfl
      exact absurd hb (by cases b <;> decide)

/-- The bitmap changed by a row write, by a decode command and by the release of reset. -/
theorem witness_BitmapWriters :
    (stepped (host (.write 0x003C 4 1))).bmp ≠ (host (.write 0x003C 4 1)).bmp ∧
    (stepped { start [] with pending := [.write 0x0040 4 0x04] }).bmp ≠ g ∧
    (stepped { start [] with pending := [.resetInput false], resetLine := true }).bmp ≠ g ∧
    step (host (.write 0x003C 4 1)) = .next (stepped (host (.write 0x003C 4 1))) :=
  ⟨by decide, by decide, by decide, rfl⟩

/-- `IN` changed by a push, by CLRIN and by the release of reset. -/
theorem witness_InputWriters :
    (stepped (host (.write 0x0050 4 1))).input ≠ (host (.write 0x0050 4 1)).input ∧
    (stepped { start [1] with pending := [.write 0x0040 4 0x0D] }).input ≠ [1] ∧
    (stepped { start [1] with pending := [.resetInput false], resetLine := true }).input ≠ [1] ∧
    step (host (.write 0x0050 4 1)) = .next (stepped (host (.write 0x0050 4 1))) :=
  ⟨by decide, by decide, by decide, rfl⟩

/-- `OUT` changed by SCANC and by the release of reset. -/
theorem witness_OutputWriters :
    let s := { start (text "0x12") with pending := [.write 0x0040 4 0x0B] }
    (stepped s).output ≠ s.output ∧
    (stepped { State.reset with output := [1], pending := [.resetInput false], resetLine := true }).output ≠ [1] ∧
    step s = .next (stepped s) := ⟨by decide, by decide, rfl⟩

/-- Each flag left set by a command that may set it: DEC128 (F128, LM), SCANC (CARR), TOKENIZE (MT); and NOP. -/
theorem witness_ResultFlags :
    exec (decode 0x02) (start []) = .next (after 0x02 (start [])) ∧ opcode 0x02 ≠ 0x0 ∧ opcode 0xF0 = 0x0 ∧
    (after 0x02 (start [])).status.f128 = true ∧ (after 0x02 (start [])).status.lm = true ∧
    (after 0x0B (start (text "0x12"))).status.carr = true ∧ (after 0x08 (start (text "z"))).status.mt = true :=
  ⟨rfl, by decide, by decide, by decide, by decide, by decide, by decide⟩

set_option maxRecDepth 20000 in
/-- IOV set by a push into a full buffer, and cleared by CLRIN. -/
theorem witness_OverflowFlag :
    let s := { host (.write 0x0050 4 0x42) with input := List.replicate 1024 0x41 }
    let u := { host (.write 0x0040 4 0x0D) with status := { Status.clear with iov := true } }
    (s.status.iov = false ∧ (stepped s).status.iov = true) ∧ (u.status.iov = true ∧ (stepped u).status.iov = false) ∧
    step u = .next (stepped u) := ⟨by decide, by decide, rfl⟩

/-- The decode commands. -/
theorem witness_DecodeReplaces : ∀ op ∈ [0x2, 0x4, 0x6, 0x9, 0xA, 0xC],
    opcode (BitVec.ofNat 32 (0xF0 + op)) ∈ [0x2, 0x4, 0x6, 0x9, 0xA, 0xC] := by decide

/-- One command of each clause and an address at the edge of what it leaves alone. -/
theorem witness_CommandFrame :
    exec (decode 0x03) (start []) = .next (after 0x03 (start [])) ∧ opcode 0x00 = 0x0 ∧
    (opcode 0x03 ∈ [0x1, 0x3, 0x5, 0x7, 0x8, 0xB] ∧ 0x1FFF ≠ 0x0044 ∧ 0x1FFF ≠ 0x004C ∧
      ¬(0x2000 ≤ 0x1FFF ∧ 0x1FFF ≤ 0x2FFF)) ∧
    (opcode 0x04 ∈ [0x2, 0x4, 0x6, 0x9, 0xA, 0xC] ∧ 0x0040 ≤ 0x0040 ∧ 0x0040 ≠ 0x0044) ∧
    (opcode 0x0D = 0xD ∧ 0x2000 ≠ 0x0044 ∧ 0x2000 ≠ 0x0048 ∧ ¬(0x1000 ≤ 0x2000 ∧ 0x2000 ≤ 0x1FFF)) ∧
    (opcode 0x0E = 0xE ∧ 0x0040 ≠ 0x0044) :=
  ⟨rfl, by decide, by decide, by decide, by decide, by decide⟩

end Sys2Proof.Tests
end

/-! The two host writes that run no command: a row write (10_state.md rule R14) and a push (rule R20). Each is first
an equation of `memWrite`, then an equation of `step`; the obligations O40 and O41 are read off the latter. -/

namespace Sys2Proof.Machine

/-! ### Reading back a row write -/

theorem State.writeRow_row_same (s : State) (r : Fin 16) (v : Row) : (s.writeRow r v).bmp[r] = v := by
  rw [State.writeRow_bmp, Fin.getElem_fin, Vector.getElem_set_self]

theorem State.writeRow_row_ne (s : State) (r r' : Fin 16) (v : Row) (h : r' ≠ r) :
    (s.writeRow r v).bmp[r'] = s.bmp[r'] := by
  have hne : r.val ≠ r'.val := fun he => h (Fin.ext he.symm)
  rw [State.writeRow_bmp, Fin.getElem_fin, Vector.getElem_set_ne _ _ hne, Fin.getElem_fin]

/-! ### The byte a push appends -/

/-- `w[7:0]` written as a remainder. -/
theorem ofNat_mod_eq_lowByte (w : Row) : BitVec.ofNat 8 (w.toNat % 256) = w.setWidth 8 := by
  apply BitVec.eq_of_toNat_eq
  rw [BitVec.toNat_ofNat, BitVec.toNat_setWidth, Nat.mod_mod]

/-! ### The two writes at the host port and as a step -/

theorem memWrite_row (s : State) (r : Fin 16) (v : Row) :
    memWrite s (4 * r.val) 4 v = .next ((s.writeRow r v).respond .ok) := by
  unfold memWrite
  rw [rowAddr?_row]
  rfl

theorem memWrite_inpush (s : State) (w : Row) :
    memWrite s 0x0050 4 w = .next ((s.pushByte w).respond .ok) := rfl

theorem step_row_write (s : State) (r : Fin 16) (v : Row) (rest : List HostInput)
    (hp : s.pending = .write (4 * r.val) 4 v :: rest) (hr : s.resetLine = false) :
    step s = .next (((s.withPending rest).writeRow r v).respond .ok) := by
  rw [step_write s _ _ _ rest hp hr, memWrite_row]

theorem step_inpush (s : State) (w : Row) (rest : List HostInput)
    (hp : s.pending = .write 0x0050 4 w :: rest) (hr : s.resetLine = false) :
    step s = .next (((s.withPending rest).pushByte w).respond .ok) := by
  rw [step_write s _ _ _ rest hp hr, memWrite_inpush]

/-! ### The obligations -/

/-- Settles O40: the new bitmap is the one `State.writeRow` leaves, and a row register reads its row. -/
theorem rowWriteReplacesOneRow : Obligations.RowWriteReplacesOneRow := by
  intro s r v rest hr hp
  refine ⟨(s.writeRow r v).bmp, ((s.withPending rest).writeRow r v).respond .ok, ?_, ?_, ?_, rfl, ?_⟩
  · exact s.writeRow_row_same r v
  · exact fun r' hne => s.writeRow_row_ne r r' v hne
  · exact step_row_write s r v rest hp hr
  · exact fun r' => memRead_row _ r'

/-- Settles O41, by the two branches of `State.pushByte`: `IN` has room, or it is full. -/
theorem inpushAppendsOrSetsIov : Obligations.InpushAppendsOrSetsIov := by
  intro s w rest hr hp
  rw [step_inpush s w rest hp hr]
  constructor
  · intro hroom
    rw [(s.withPending rest).pushByte_of_room w hroom, ofNat_mod_eq_lowByte]
    rfl
  · intro hfull
    rw [(s.withPending rest).pushByte_of_full w (Nat.not_lt.mpr hfull)]
    rfl

end Sys2Proof.Machine

/-! The access table of 20_memory.md rule R31. First when an access has an entry, then what STATUS and a window byte
read; the obligations O37 and O39 put these together with the model's laws of the host port. -/

namespace Sys2Proof.Machine

/-! ### The accesses that have an entry -/

theorem HostInput.read_wf_iff (addr size : Nat) :
    (HostInput.read addr size).wf = true ↔
      (size = 4 ∧ addr % 4 = 0 ∧ addr ≤ 0x004C ∧ addr ≠ 0x0040) ∨ (size = 1 ∧ 0x1000 ≤ addr ∧ addr ≤ 0x2FFF) := by
  simp [HostInput.wf, and_assoc]

theorem HostInput.write_wf_iff (addr size : Nat) (v : Row) :
    (HostInput.write addr size v).wf = true ↔ size = 4 ∧ addr % 4 = 0 ∧ (addr ≤ 0x0040 ∨ addr = 0x0050) := by
  simp [HostInput.wf, and_assoc]

/-! ### The values read -/

/-- The layout of rule R18: the six flags from bit 0 up, and no other bit. -/
theorem getLsbD_statusWord (f : Status) (i : Nat) :
    (statusWord f).getLsbD i = [f.err, f.f128, f.carr, f.lm, f.mt, f.iov].getD i false := by
  simp only [statusWord, BitVec.getLsbD_setWidth, BitVec.getLsbD_append, BitVec.getLsbD_ofBool]
  match i with
  | 0 | 1 | 2 | 3 | 4 | 5 => rfl
  | n + 6 => simp

/-- Rule R40: below the length a byte reads the buffer, at or above it zero. -/
theorem byteAt_eq_ite (b : Bytes) (i : Nat) : byteAt b i = if i < b.length then b.getD i 0 else 0 := by
  split
  · rfl
  · next h => exact byteAt_of_ge b i (Nat.not_lt.mp h)

/-! ### The accesses that have no entry -/

/-- The counterpart of `memRead_of_not_wf` for a write. -/
theorem memWrite_of_not_wf (s : State) (addr size : Nat) (v : Row) (h : (HostInput.write addr size v).wf = false) :
    memWrite s addr size v = .next (s.respond .busError) := by
  rw [← Bool.not_eq_true, HostInput.write_wf_iff] at h
  rcases memWrite_cases s addr size v with ⟨r, h4, ha, -⟩ | ⟨h4, ha, -⟩ | ⟨h4, ha, -⟩ | ⟨-, hw⟩
  · omega
  · omega
  · omega
  · exact hw

theorem step_of_not_wf (s : State) (a : HostInput) (rest : List HostInput) (hr : s.resetLine = false)
    (hp : s.pending = a :: rest) (ha : a.wf = false) :
    step s = .next ((s.withPending rest).respond .busError) := by
  cases a with
  | read addr size =>
    rw [step_read s addr size rest hp hr, memRead_of_not_wf s addr size ha]
    rfl
  | write addr size v => rw [step_write s addr size v rest hp hr, memWrite_of_not_wf _ addr size v ha]
  | resetInput b => cases ha

/-! ### The obligations -/

/-- Settles O37: one clause for each line of the table; the last one negates `HostInput.read_wf_iff`. -/
theorem readTableIsComplete : Obligations.ReadTableIsComplete := by
  intro s
  refine ⟨memRead_row s, ?status, memRead_inlen s, memRead_outlen s, ?inWindow, ?outWindow, ?noEntry⟩
  case status =>
    have bit := getLsbD_statusWord s.status
    exact ⟨statusWord s.status, memRead_status s, bit 0, bit 1, bit 2, bit 3, bit 4, bit 5,
      fun i hi => (bit i).trans (List.getD_eq_default _ _ hi)⟩
  case inWindow => exact fun i hi => by rw [memRead_inWindow s i hi, byteAt_eq_ite]
  case outWindow => exact fun i hi => by rw [memRead_outWindow s i hi, byteAt_eq_ite]
  case noEntry =>
    intro addr size hregister hwindow
    apply memRead_of_not_wf
    rw [← Bool.not_eq_true, HostInput.read_wf_iff]
    omega

/-- Settles O39: the step is `step_of_not_wf`, and every form of rule R34 lies outside both tables of entries. -/
theorem malformedAccessHasNoEffect : Obligations.MalformedAccessHasNoEffect := by
  constructor
  · exact step_of_not_wf
  · intro addr size v hform
    rw [← Bool.not_eq_true, ← Bool.not_eq_true, HostInput.read_wf_iff, HostInput.write_wf_iff]
    constructor
    · omega
    · omega

end Sys2Proof.Machine

/-! The option bits of 30_encoding.md rule R53: which of them each opcode's command reads. -/

namespace Sys2Proof.Machine

/-- The column "Uses" of rule R52: what a command does is fixed by its opcode and the options named there. -/
theorem exec_instrOfOp_congr (op : Nat) (hop : op < 16) {sp rn ib zp sp' rn' ib' zp' : Bool} (s : State)
    (hsp : op = 0x1 ∨ op = 0x2 → sp = sp') (hrnib : op = 0x1 → rn = rn' ∧ ib = ib') (hzp : op = 0x5 → zp = zp') :
    exec (instrOfOp (BitVec.ofNat 4 op) sp rn ib zp) s = exec (instrOfOp (BitVec.ofNat 4 op) sp' rn' ib' zp') s := by
  match op, hop with
  | 0x1, _ =>
    obtain rfl := hsp (.inl rfl)
    obtain ⟨rfl, rfl⟩ := hrnib rfl
    rw [instrOfOp_enc128, exec_enc128, exec_enc128]
  | 0x2, _ =>
    obtain rfl := hsp (.inr rfl)
    rw [instrOfOp_dec128, exec_dec128, exec_dec128]
  | 0x5, _ =>
    obtain rfl := hzp rfl
    rw [instrOfOp_enctok, exec_enctok, exec_enctok]
  | 0x0, _ | 0x3, _ | 0x4, _ | 0x6, _ | 0x7, _ | 0x8, _ | 0x9, _ | 0xA, _ | 0xB, _ | 0xC, _ | 0xD, _ | 0xE, _
  | 0xF, _ => rfl
  | n + 16, hop => omega

/-- Settles O3: each written value decodes by its opcode and bits 4 to 7, and of these `exec` reads the used ones. -/
theorem unusedOptionBitsHaveNoEffect : Obligations.UnusedOptionBitsHaveNoEffect := by
  intro w w' s hop hsp hrnib hzp
  rw [decode_of_opcode w (Spec.opcode w) rfl, decode_of_opcode w' (Spec.opcode w) hop.symm]
  exact exec_instrOfOp_congr (Spec.opcode w) (Nat.mod_lt _ (by decide)) s hsp hrnib hzp

end Sys2Proof.Machine

/-! The text functions of 40_common.md rules R70 to R78: the model's tests for characters against the rules' classes,
then what a token holds, what stripping keeps and which byte a pair of digits is. -/

namespace Sys2Proof.Machine

open Spec (IsSpace IsDigit digitValue)

/-! ### Characters -/

theorem isWs_iff (c : Byte) : isWs c = true ↔ IsSpace c := by
  simp [isWs, IsSpace, ← BitVec.toNat_inj, or_assoc]

theorem isWs_eq_false_iff (c : Byte) : isWs c = false ↔ ¬IsSpace c := by
  rw [← isWs_iff, Bool.not_eq_true]

theorem digitValue_lt {c : Byte} (h : IsDigit c) : digitValue c < 16 := by
  unfold IsDigit at h
  unfold digitValue
  split_ifs <;> omega

/-- Each of the three ranges of digits is one branch of `hexval?` and one of `digitValue`. -/
theorem hexval?_of_isDigit {c : Byte} (h : IsDigit c) : hexval? c = some (BitVec.ofNat 4 (digitValue c)) := by
  unfold hexval? digitValue
  rcases h with h | h | h
  · rw [if_pos h, if_pos h.2]
  · rw [if_neg (by omega), if_pos h, if_neg (by omega), if_pos h.2]
  · rw [if_neg (by omega), if_neg (by omega), if_pos h, if_neg (by omega), if_neg (by omega)]

theorem hexval?_of_not_isDigit {c : Byte} (h : ¬IsDigit c) : hexval? c = none := by
  unfold IsDigit at h
  unfold hexval?
  rw [if_neg (by omega), if_neg (by omega), if_neg (by omega)]

theorem isHex_iff (c : Byte) : isHex c = true ↔ IsDigit c := by
  by_cases h : IsDigit c
  · simp [isHex, hexval?_of_isDigit h, h]
  · simp [isHex, hexval?_of_not_isDigit h, h]

/-! ### Tokens -/

/-- A token in the output of the loop is one that whitespace or the end of the text has closed: the loop closes no empty
one and has put no whitespace in it. -/
theorem mem_tokensFrom (cur t k : Bytes) (hcur : ∀ c ∈ cur, isWs c = false) (hk : k ∈ tokensFrom cur t) :
    k ≠ [] ∧ ∀ c ∈ k, isWs c = false := by
  induction t generalizing cur with
  | nil =>
    rw [tokensFrom_nil] at hk
    split at hk
    · cases hk
    next hne =>
      obtain rfl := List.mem_singleton.mp hk
      exact ⟨by simpa using hne, hcur⟩
  | cons c t ih =>
    rw [tokensFrom_cons] at hk
    split at hk
    next =>
      split at hk
      · exact ih [] (by simp) hk
      next hne =>
        rcases List.mem_cons.mp hk with rfl | hk
        · exact ⟨by simpa using hne, hcur⟩
        · exact ih [] (by simp) hk
    next hc =>
      refine ih (cur ++ [c]) (fun d hd => ?_) hk
      rcases List.mem_append.mp hd with hd | hd
      · exact hcur d hd
      · rw [List.mem_singleton.mp hd, Bool.eq_false_of_not_eq_true hc]

theorem tokens_of_all_ws (t : Bytes) (ht : ∀ c ∈ t, isWs c = true) : tokens t = [] := by
  induction t with
  | nil => exact tokens_nil
  | cons c t ih =>
    obtain ⟨hc, ht⟩ := List.forall_mem_cons.mp ht
    calc tokens (c :: t) = tokens [] ++ tokens t := tokens_append_ws [] t c hc
      _ = [] := by rw [ih ht, tokens_nil, List.append_nil]

/-- Settles O18: the loop's invariant gives the first clause, what the loop does at a whitespace byte and along a run
without one gives the others. -/
theorem tokensAreMaximalRuns : Obligations.TokensAreMaximalRuns := by
  unfold Obligations.TokensAreMaximalRuns
  simp only [← isWs_iff, Bool.not_eq_true]
  exact ⟨fun t k => mem_tokensFrom [] t k (by simp), tokens_of_all_ws, tokens_run, tokens_append_ws⟩

/-! ### Stripped tokens -/

theorem strip_singleton_of_not_hex (c : Byte) (h : ¬isHex c = true) : strip [c] = [] :=
  List.filter_cons_of_neg h

/-- Settles O19: `strip` filters by `isHex`, which is membership in `HEX`. -/
theorem stripKeepsExactlyTheHexDigits : Obligations.StripKeepsExactlyTheHexDigits := by
  unfold Obligations.StripKeepsExactlyTheHexDigits
  simp only [← isHex_iff]
  exact ⟨isHex_of_mem_strip, strip_of_hex, strip_append, strip_singleton_of_not_hex⟩

/-! ### Pairs of digits -/

/-- The first of two nibbles is the high one. -/
theorem ofNat_append_ofNat_nibble {m n : Nat} (hm : m < 16) (hn : n < 16) :
    (BitVec.ofNat 4 m ++ BitVec.ofNat 4 n : Byte) = BitVec.ofNat 8 (16 * m + n) := by
  apply BitVec.eq_of_toNat_eq
  rw [BitVec.toNat_append, BitVec.toNat_ofNat, BitVec.toNat_ofNat, BitVec.toNat_ofNat, Nat.mod_eq_of_lt hm,
    Nat.mod_eq_of_lt (show n < 2 ^ 4 from hn), ← Nat.shiftLeft_add_eq_or_of_lt hn, Nat.shiftLeft_eq]
  omega

theorem pairs_singleton {a : Byte} (ha : IsDigit a) : pairs [a] = [BitVec.ofNat 8 (digitValue a)] := by
  have hwiden := BitVec.setWidth_ofNat_of_le_of_lt (v := 8) (by decide : 4 ≤ 8) (digitValue_lt ha)
  simp [pairs, hexval?_of_isDigit ha, pairNibs, hwiden]

theorem pairs_cons_cons {a b : Byte} (ha : IsDigit a) (hb : IsDigit b) (t : Bytes) :
    pairs (a :: b :: t) = BitVec.ofNat 8 (16 * digitValue a + digitValue b) :: pairs t := by
  rw [← ofNat_append_ofNat_nibble (digitValue_lt ha) (digitValue_lt hb)]
  simp [pairs, hexval?_of_isDigit ha, hexval?_of_isDigit hb, pairNibs]

/-- Byte `i` of the pairs, by the recursion of `pairNibs`: two digits in front are one byte in front. -/
theorem toNat_getD_pairs : ∀ (s : Bytes) (i : Nat), (∀ c ∈ s, IsDigit c) →
    (2 * i + 1 < s.length →
      ((pairs s).getD i 0).toNat = 16 * digitValue (s.getD (2 * i) 0) + digitValue (s.getD (2 * i + 1) 0)) ∧
    (2 * i + 1 = s.length → ((pairs s).getD i 0).toNat = digitValue (s.getD (2 * i) 0))
  | [], i, _ => ⟨fun h => by simp at h, fun h => by simp at h⟩
  | [a], i, hs => by
    have ha : IsDigit a := hs a (by simp)
    have hlt := digitValue_lt ha
    refine ⟨fun h => by simp at h, fun h => ?_⟩
    obtain rfl : i = 0 := by simpa using h
    simp only [pairs_singleton ha, Nat.mul_zero, List.getD_cons_zero, BitVec.toNat_ofNat]
    omega
  | a :: b :: t, 0, hs => by
    have ha : IsDigit a := hs a (by simp)
    have hb : IsDigit b := hs b (by simp)
    have hlta := digitValue_lt ha
    have hltb := digitValue_lt hb
    refine ⟨fun _ => ?_, fun h => by simp at h⟩
    simp only [pairs_cons_cons ha hb, Nat.mul_zero, Nat.zero_add, List.getD_cons_zero, List.getD_cons_succ,
      BitVec.toNat_ofNat]
    omega
  | a :: b :: t, i + 1, hs => by
    obtain ⟨ihPair, ihAlone⟩ := toNat_getD_pairs t i fun c hc => hs c (by simp [hc])
    rw [pairs_cons_cons (hs a (by simp)) (hs b (by simp)), List.getD_cons_succ]
    have hlen : (a :: b :: t).length = t.length + 2 := rfl
    constructor
    · exact fun h => ihPair (by omega)
    · exact fun h => ihAlone (by omega)

/-- Settles O20: the length is `length_pairs`, the bytes are `toNat_getD_pairs`. -/
theorem pairsReadDigitsFromTheLeft : Obligations.PairsReadDigitsFromTheLeft := by
  intro s hs
  exact ⟨length_pairs s fun c hc => (isHex_iff c).mpr (hs c hc), fun i => toNat_getD_pairs s i hs⟩

end Sys2Proof.Machine

/-! Frame128 (41_frame128.md rules R91 to R94): the words of the statements against the model's functions, then each
bit of the frame ENC128 writes and each pixel of the bitmap DEC128 reads. -/

namespace Sys2Proof.Machine

open Spec (word HasOpcode place bitAt IsFrame128)

/-! ### Command words -/

/-- The five fields of rule R55 read from the word of rule R56. -/
theorem word_fields (op : Nat) (hop : op < 16) (sp rn ib zp : Bool) :
    (word op sp rn ib zp).extractLsb' 0 4 = BitVec.ofNat 4 op ∧ (word op sp rn ib zp).getLsbD 4 = sp ∧
    (word op sp rn ib zp).getLsbD 5 = rn ∧ (word op sp rn ib zp).getLsbD 6 = ib ∧
    (word op sp rn ib zp).getLsbD 7 = zp := by
  revert op sp rn ib zp
  decide

/-- The row of rule R52 that stands at an opcode is selected by every word with that opcode. -/
theorem hasOpcode_instrOfOp (op : Nat) (hop : op < 16) : HasOpcode op (instrOfOp (BitVec.ofNat 4 op)) := by
  intro hi sp rn ib zp
  obtain ⟨hOp, hSp, hRn, hIb, hZp⟩ := word_fields op hop sp rn ib zp
  rw [decode_append, hOp, hSp, hRn, hIb, hZp]

/-! ### Places, bits and flags -/

theorem perm_eq_place (sp : Bool) (g : Nat) (hg : g < 8) : perm sp g = place sp g := by
  cases sp with
  | false => rfl
  | true => exact perm_true_eq_table g hg

theorem place_lt (sp : Bool) (g : Nat) (hg : g < 8) : place sp g < 8 :=
  perm_eq_place sp g hg ▸ perm_lt sp g hg

theorem perm_place (sp : Bool) (g : Nat) (hg : g < 8) : perm sp (place sp g) = g := by
  rw [← perm_eq_place sp g hg, perm_perm]

/-- Past the end of a sequence both sides read zeros. -/
theorem bitAt_eq_getLsbD_byteAt (y : Bytes) (i k : Nat) : bitAt y i k = (byteAt y i).getLsbD k := by
  rw [bitAt, byteAt, List.getD_eq_getElem?_getD]
  cases y[i]? with
  | none => exact BitVec.getLsbD_zero.symm
  | some c => rfl

theorem lmExact_eq_decide (want n : Nat) : lmExact want n = decide (n ≠ want) :=
  decide_not.symm

/-! ### The frame -/

/-- A byte of the frame has a transformed nibble below and zeros above (rule R91). -/
theorem getLsbD_frameNibble_grp_byte (rn ib : Bool) (v : Row) (g k : Nat) :
    ((frameNibble rn ib (grp v g)).setWidth 8).getLsbD k =
      (decide (k < 4) && (v.getLsbD (4 * g + if rn then 3 - k else k) ^^ ib)) := by
  rw [BitVec.getLsbD_setWidth]
  by_cases hk : k < 4
  · have hsrc : (if rn then 3 - k else k) < 4 := by split <;> omega
    rw [getLsbD_frameNibble rn ib _ k hk, getLsbD_grp]
    simp [hsrc, hk, show k < 8 by omega]
  · simp [BitVec.getLsbD_of_ge _ k (Nat.not_lt.mp hk), hk]

/-- Group `g` of row `r` is found where rule R90 puts it. -/
theorem bitAt_f128 (b : Bitmap) (sp rn ib : Bool) (r : Fin 16) (g k : Nat) (hg : g < 8) :
    bitAt (f128 b sp rn ib) (8 * r.val + place sp g) k =
      (decide (k < 4) && (b[r].getLsbD (4 * g + if rn then 3 - k else k) ^^ ib)) := by
  rw [bitAt_eq_getLsbD_byteAt, byteAt_f128 b sp rn ib r _ (place_lt sp g hg), perm_place sp g hg,
    getLsbD_frameNibble_grp_byte]

theorem isFrame128_b128 (y : Bytes) (sp : Bool) : IsFrame128 y sp (b128 y sp) := by
  intro r g k hg hk
  rw [getLsbD_b128 y sp r g k hg hk, perm_eq_place sp g hg, bitAt_eq_getLsbD_byteAt]

/-! ### The obligations -/

/-- Settles O4: the frame is `f128` of the bitmap, its bits are `bitAt_f128`. -/
theorem enc128WritesNibblePerByteFrame : Obligations.Enc128WritesNibblePerByteFrame := by
  refine ⟨hasOpcode_instrOfOp 0x1 (by decide), fun sp rn ib zp s => ⟨f128 s.bmp sp rn ib, ?_, ?_, ?_⟩⟩
  · rfl
  · exact length_f128 s.bmp sp rn ib
  · exact fun r g k hg _ => bitAt_f128 s.bmp sp rn ib r g k hg

/-- Settles O5: the bitmap is `b128` of `IN`, its pixels are `isFrame128_b128`. -/
theorem dec128ReadsLowNibbles : Obligations.Dec128ReadsLowNibbles := by
  refine ⟨hasOpcode_instrOfOp 0x2 (by decide), fun sp rn ib zp s => ⟨b128 s.input sp, ?_, ?_⟩⟩
  · rw [exec_dec128, execDec128, lmExact_eq_decide]
    rfl
  · exact isFrame128_b128 s.input sp

end Sys2Proof.Machine

/-! Frame64 (42_frame64.md rules R101 to R104): each bit of the frame ENC64 writes and each pixel of the bitmap DEC64
reads. -/

namespace Sys2Proof.Machine

open Spec (bitAt IsFrame64)

/-- Byte `k` of row `r` holds the pixels of columns `8k .. 8k+7` (rule R101). -/
theorem bitAt_f64 (b : Bitmap) (r : Fin 16) (k i : Nat) (hk : k < 4) (hi : i < 8) :
    bitAt (f64 b) (4 * r.val + k) i = b[r].getLsbD (8 * k + i) := by
  rw [bitAt_eq_getLsbD_byteAt, byteAt_f64 b r k hk, BitVec.getLsbD_extractLsb', decide_eq_true hi, Bool.true_and]

theorem isFrame64_b64 (y : Bytes) : IsFrame64 y (b64 y) := by
  intro r k i hk hi
  rw [getLsbD_b64 y r k i hk hi, bitAt_eq_getLsbD_byteAt]

/-- Settles O9: the frame is `f64` of the bitmap, its bits are `bitAt_f64`. -/
theorem enc64WritesLittleEndianRows : Obligations.Enc64WritesLittleEndianRows := by
  refine ⟨hasOpcode_instrOfOp 0x3 (by decide), fun sp rn ib zp s => ⟨f64 s.bmp, ?_, ?_, ?_⟩⟩
  · rfl
  · exact length_f64 s.bmp
  · exact fun r k i hk hi => bitAt_f64 s.bmp r k i hk hi

/-- Settles O10: the bitmap is `b64` of `IN`, its pixels are `isFrame64_b64`. -/
theorem dec64ReadsLittleEndianRows : Obligations.Dec64ReadsLittleEndianRows := by
  refine ⟨hasOpcode_instrOfOp 0x4 (by decide), fun sp rn ib zp s => ⟨b64 s.input, ?_, ?_⟩⟩
  · rw [exec_dec64, execDec64, lmExact_eq_decide]
    rfl
  · exact isFrame64_b64 s.input

end Sys2Proof.Machine

/-! TokenLine (43_tokenline.md rules R111 to R114): the digits of each token ENCTOK writes, then the digits DECTOK reads
from a token and the flags it sets. -/

namespace Sys2Proof.Machine

open Spec (IsDigit digitValue digitCode)

/-! ### Nibbles as quotients -/

theorem toNat_extractLsb'_nibble {w : Nat} (x : BitVec w) (n : Nat) :
    (x.extractLsb' (4 * n) 4).toNat = x.toNat / 16 ^ n % 16 := by
  rw [BitVec.extractLsb'_toNat, Nat.shiftRight_eq_div_pow, Nat.pow_mul]

theorem toNat_extractLsb'_byte (v : Row) (k : Nat) : (v.extractLsb' (8 * k) 8).toNat = v.toNat / 256 ^ k % 256 := by
  rw [BitVec.extractLsb'_toNat, Nat.shiftRight_eq_div_pow, Nat.pow_mul]

/-- Byte `k` of a row holds its nibbles `2k` and `2k + 1` (rule R69). -/
theorem grp_rowval (b : Nat → Byte) (k h : Nat) (hk : k < 4) (hh : h < 2) :
    grp (rowval (b 0) (b 1) (b 2) (b 3)) (2 * k + h) = (b k).extractLsb' (4 * h) 4 := by
  apply BitVec.eq_of_getLsbD_eq
  intro i hi
  rw [getLsbD_grp, show 4 * (2 * k + h) + i = 8 * k + (4 * h + i) by omega,
    getLsbD_rowval b k (4 * h + i) hk (by omega), BitVec.getLsbD_extractLsb']

/-! ### The tokens ENCTOK writes (rule R111) -/

theorem tokenc_eq_ofFn (b : Bitmap) (zp : Bool) :
    tokenc b zp = [0x20].intercalate (List.ofFn fun r : Fin 16 => rowToken zp b[r]) := by
  have hrows : b.toList.map (rowToken zp) = List.ofFn fun r : Fin 16 => rowToken zp b[r] := by
    apply List.ext_getElem
    · simp
    · intro r h1 h2
      rw [List.getElem_map, Vector.getElem_toList, List.getElem_ofFn]
      rfl
  rw [tokenc, hrows]

/-- Fifteen spaces and the tokens. -/
theorem length_tokenc (b : Bitmap) (zp : Bool) :
    (tokenc b zp).length =
      15 + ((List.finRange 16).map fun r : Fin 16 => if b[r] = 0 ∧ zp = false then 1 else 8).sum := by
  have hne : (List.ofFn fun r : Fin 16 => rowToken zp b[r]) ≠ [] := List.ne_nil_of_length_eq_add_one List.length_ofFn
  rw [tokenc_eq_ofFn, length_intercalate_space _ hne, List.length_ofFn, Nat.add_comm, List.map_ofFn,
    List.ofFn_eq_map]
  simp only [Function.comp_def, length_rowToken]

/-- Two digits stand for each byte, the high nibble's first (rule R75). -/
theorem getD_flatMap_hex2 (l : Bytes) (k : Nat) (hk : k < l.length) :
    (l.flatMap hex2).getD (2 * k) 0 = hexdigit ((l.getD k 0).extractLsb' 4 4) ∧
    (l.flatMap hex2).getD (2 * k + 1) 0 = hexdigit ((l.getD k 0).extractLsb' 0 4) := by
  have at_place (j : Nat) (hj : j < 2) : (l.flatMap hex2).getD (2 * k + j) 0 = (hex2 (l.getD k 0)).getD j 0 := by
    rw [List.getD_eq_getElem?_getD, getElem?_flatMap_const (f := hex2) (n := 2) (fun _ => rfl) hj,
      List.getElem?_eq_getElem hk, Option.bind_some, ← List.getD_eq_getElem?_getD, List.getD_eq_getElem _ _ hk]
  exact ⟨at_place 0 (by decide), at_place 1 (by decide)⟩

theorem toNat_getD_rowToken (zp : Bool) (v : Row) (h : ¬(v = 0 ∧ zp = false)) (k : Nat) (hk : k < 4) :
    ((rowToken zp v).getD (2 * k) 0).toNat = digitCode (v.toNat / 256 ^ k % 256 / 16) ∧
    ((rowToken zp v).getD (2 * k + 1) 0).toNat = digitCode (v.toNat / 256 ^ k % 16) := by
  obtain ⟨hhigh, hlow⟩ := getD_flatMap_hex2 (rowbytes v) k hk
  have nibble (n : Nat) := toNat_extractLsb'_nibble (v.extractLsb' (8 * k) 8) n
  rw [rowToken_of_ne zp v h, hhigh, hlow, getD_rowbytes v k hk, hexdigit_toNat, hexdigit_toNat, nibble 1, nibble 0,
    toNat_extractLsb'_byte]
  constructor
  · exact congrArg digitCode (by omega)
  · exact congrArg digitCode (by omega)

/-- Settles O13: token `r` is `rowToken` of row `r`. -/
theorem enctokWritesSixteenTokens : Obligations.EnctokWritesSixteenTokens := by
  refine ⟨hasOpcode_instrOfOp 0x5 (by decide), fun sp rn ib zp s =>
    ⟨tokenc s.bmp zp, fun r => rowToken zp s.bmp[r], ?_, ?_, ?_, fun r => ⟨?_, ?_⟩⟩⟩
  · rfl
  · exact tokenc_eq_ofFn s.bmp zp
  · exact length_tokenc s.bmp zp
  · exact fun h => if_pos h
  · exact fun h => ⟨(length_rowToken zp _).trans (if_neg h), toNat_getD_rowToken zp _ h⟩

/-! ### The digits DECTOK reads (rule R113) -/

/-- Eight digits are a case of fewer: nothing is put in front of them. -/
theorem eightDigits_eq_ite (keep : TruncKeep) (s : Bytes) :
    eightDigits keep s =
      if s.length ≤ 8 then List.replicate (8 - s.length) 0x30 ++ s
      else if keep = .first then s.take 8 else s.drop (s.length - 8) := by
  unfold eightDigits
  by_cases hlt : s.length < 8
  · rw [if_pos hlt, if_pos hlt.le]
  by_cases heq : s.length = 8
  · rw [if_neg hlt, if_pos heq, if_pos heq.le, heq]
    rfl
  · rw [if_neg hlt, if_neg heq, if_neg (by omega)]
    cases keep <;> rfl

theorem length_eightDigits (keep : TruncKeep) (s : Bytes) : (eightDigits keep s).length = 8 := by
  rw [eightDigits_eq_ite]
  split_ifs
  · rw [List.length_append, List.length_replicate]
    omega
  · rw [List.length_take]
    omega
  · rw [List.length_drop]
    omega

theorem isDigit_of_mem_eightDigits (keep : TruncKeep) (s : Bytes) (hs : ∀ c ∈ s, IsDigit c) :
    ∀ c ∈ eightDigits keep s, IsDigit c := by
  intro c hc
  rw [eightDigits_eq_ite] at hc
  split_ifs at hc
  · rcases List.mem_append.mp hc with hzero | hmem
    · rw [List.eq_of_mem_replicate hzero]
      exact (isHex_iff _).mp (by decide)
    · exact hs c hmem
  · exact hs c (List.mem_of_mem_take hc)
  · exact hs c (List.mem_of_mem_drop hc)

/-- An empty token and `"0"` are no special cases: padded to `"00000000"` they give the zero row too (rule R113). -/
theorem tokenRow_eq_rowval (keep : TruncKeep) (s : Bytes) :
    tokenRow keep s = rowval (byteAt (pairs (eightDigits keep s)) 0) (byteAt (pairs (eightDigits keep s)) 1)
      (byteAt (pairs (eightDigits keep s)) 2) (byteAt (pairs (eightDigits keep s)) 3) := by
  unfold tokenRow
  split
  next hzero =>
    have hpadded : eightDigits keep s = List.replicate 8 0x30 := by
      rcases hzero with hnil | rfl
      · rw [List.length_eq_zero_iff.mp hnil]
        rfl
      · rfl
    rw [hpadded]
    decide
  next => rfl

/-- Digits `2i` and `2i + 1` are the high and the low nibble of byte `i` (rules R69, R78). -/
theorem tokenRow_nibbles (keep : TruncKeep) (s : Bytes) (hs : ∀ c ∈ s, IsDigit c) (i : Nat) (hi : i < 4) :
    (tokenRow keep s).toNat / 16 ^ (2 * i + 1) % 16 = digitValue ((eightDigits keep s).getD (2 * i) 0) ∧
    (tokenRow keep s).toNat / 16 ^ (2 * i + 0) % 16 = digitValue ((eightDigits keep s).getD (2 * i + 1) 0) := by
  have hlen := length_eightDigits keep s
  have hdigits := isDigit_of_mem_eightDigits keep s hs
  have value_lt (q : Nat) (hq : q < 8) : digitValue ((eightDigits keep s).getD q 0) < 16 := by
    rw [List.getD_eq_getElem _ _ (by omega)]
    exact digitValue_lt (hdigits _ (List.getElem_mem _))
  have hhigh := value_lt (2 * i) (by omega)
  have hlow := value_lt (2 * i + 1) (by omega)
  have hbyte := (toNat_getD_pairs (eightDigits keep s) i hdigits).1 (by omega)
  have nibble (h : Nat) (hh : h < 2) : (tokenRow keep s).toNat / 16 ^ (2 * i + h) % 16 =
      ((pairs (eightDigits keep s)).getD i 0).toNat / 16 ^ h % 16 := by
    rw [← toNat_extractLsb'_nibble, ← toNat_extractLsb'_nibble, tokenRow_eq_rowval]
    exact congrArg BitVec.toNat (grp_rowval (byteAt (pairs (eightDigits keep s))) i h hi hh)
  rw [nibble 1 (by decide), nibble 0 (by decide), hbyte]
  constructor
  · omega
  · omega

theorem tokenRow_digit (keep : TruncKeep) (s : Bytes) (hs : ∀ c ∈ s, IsDigit c) (q : Nat) (hq : q < 8) :
    (tokenRow keep s).toNat / 16 ^ (2 * (q / 2) + (1 - q % 2)) % 16 = digitValue ((eightDigits keep s).getD q 0) := by
  obtain ⟨hhigh, hlow⟩ := tokenRow_nibbles keep s hs (q / 2) (by omega)
  rcases Nat.mod_two_eq_zero_or_one q with heven | hodd
  · rw [heven, hhigh, show 2 * (q / 2) = q by omega]
  · rw [hodd, hlow, show 2 * (q / 2) + 1 = q by omega]

theorem btok_of_missing (keep : TruncKeep) (t : Bytes) (r : Fin 16) (h : (tokens t).length ≤ r.val) :
    (btok keep t)[r] = 0 := by
  simp [btok, List.getElem?_eq_none h]

theorem btok_of_token (keep : TruncKeep) (t : Bytes) (r : Fin 16) (k : Bytes) (h : (tokens t)[r.val]? = some k) :
    (btok keep t)[r] = tokenRow keep (strip k) := by
  simp [btok, h]

/-! ### The flags of DECTOK (rule R114) -/

theorem lmTokenLine_eq_decide (t : Bytes) :
    lmTokenLine t = decide ((tokens t).length ≠ 16 ∨ ∃ k ∈ (tokens t).take 16,
      (strip k).length ≠ 0 ∧ (strip k).length ≠ 8 ∧ strip k ≠ [0x30]) := by
  rw [Bool.eq_iff_iff]
  simp [lmTokenLine, oddSized, and_assoc]

theorem mtTokenLine_eq_decide (t : Bytes) :
    mtTokenLine t = decide (∃ k ∈ (tokens t).take 16, (strip k).length = 0) := by
  rw [Bool.eq_iff_iff]
  simp [mtTokenLine, malformed]

/-- Settles O14: a row without a token is `btok_of_missing`, the digits of one with a token are `tokenRow_digit`. -/
theorem dectokReadsSixteenTokens : Obligations.DectokReadsSixteenTokens := by
  refine ⟨hasOpcode_instrOfOp 0x6 (by decide), fun sp rn ib zp s =>
    ⟨btok s.cfg.truncKeep s.input, ?_, fun r => ⟨?_, ?_⟩⟩⟩
  · rw [exec_dectok, execDectok, lmTokenLine_eq_decide, mtTokenLine_eq_decide]
    rfl
  · exact btok_of_missing s.cfg.truncKeep s.input r
  · intro k hk q hq
    have hstrip : ∀ c ∈ strip k, IsDigit c := fun c hc => (isHex_iff c).mp (isHex_of_mem_strip k c hc)
    rw [btok_of_token _ _ r k hk, ← eightDigits_eq_ite]
    exact tokenRow_digit s.cfg.truncKeep (strip k) hstrip q hq

end Sys2Proof.Machine

/-! LegacyStyleText (44_legacytext.md rules R120, R121): the two characters of a cell, then where the cell of a byte of a
row stands in the text ENCLEG writes. -/

namespace Sys2Proof.Machine

open Spec (digitCode)

/-! ### The two characters of a cell -/

/-- The digit of nibble `n` of a byte (rule R74). -/
theorem toNat_hexdigit_nibble (y : Byte) (n : Nat) :
    (hexdigit (y.extractLsb' (4 * n) 4)).toNat = digitCode (y.toNat / 16 ^ n % 16) := by
  rw [hexdigit_toNat, toNat_extractLsb'_nibble]
  rfl

/-- A byte below 0x10 is its own low nibble. -/
theorem cell_of_lt (y : Byte) (h : y.toNat < 0x10) :
    ((cell y).getD 0 0).toNat = digitCode y.toNat ∧ (cell y).getD 1 0 = 0x20 := by
  rw [cell, if_pos h]
  constructor
  · exact (toNat_hexdigit_nibble y 0).trans (congrArg digitCode (by omega))
  · rfl

theorem cell_of_ge (y : Byte) (h : 0x10 ≤ y.toNat) :
    ((cell y).getD 0 0).toNat = digitCode (y.toNat / 16) ∧ ((cell y).getD 1 0).toNat = digitCode (y.toNat % 16) := by
  have hy := y.isLt
  rw [cell, if_neg (Nat.not_lt.mpr h)]
  constructor
  · exact (toNat_hexdigit_nibble y 1).trans (congrArg digitCode (by omega))
  · exact (toNat_hexdigit_nibble y 0).trans (congrArg digitCode (by omega))

/-! ### The text -/

/-- Every cell has two characters, so cell `i` starts at `2i`. -/
theorem getD_flatMap_cell (l : Bytes) (i j : Nat) (hi : i < l.length) (hj : j < 2) :
    (l.flatMap cell).getD (2 * i + j) 0 = (cell (byteAt l i)).getD j 0 := by
  rw [List.getD_eq_getElem?_getD, getElem?_flatMap_const length_cell hj, List.getElem?_eq_getElem hi,
    Option.bind_some, ← List.getD_eq_getElem?_getD, byteAt_of_lt l i hi]

/-- The cell of byte `k` of row `r` stands where the Frame64 has the byte (rule R120). -/
theorem getD_legc (b : Bitmap) (r : Fin 16) (k j : Nat) (hk : k < 4) (hj : j < 2) :
    (legc b).getD (2 * (4 * r.val + k) + j) 0 = (cell (b[r].extractLsb' (8 * k) 8)).getD j 0 := by
  have hi : 4 * r.val + k < (f64 b).length := by rw [length_f64]; omega
  rw [legc, getD_flatMap_cell (f64 b) _ j hi hj, byteAt_f64 b r k hk]

/-! ### The obligation -/

/-- Settles O16: the text is `legc` of the bitmap, and byte `k` of row `r` is read at its cell, by `cell_of_lt` and
`cell_of_ge`. -/
theorem enclegWritesTwoCharactersPerByte : Obligations.EnclegWritesTwoCharactersPerByte := by
  refine ⟨hasOpcode_instrOfOp 0x7 (by decide), fun sp rn ib zp s => ⟨legc s.bmp, ?_, ?_, ?_⟩⟩
  · rfl
  · exact length_legc s.bmp
  · intro r k y hk hy
    have hfirst := getD_legc s.bmp r k 0 hk (by decide)
    have hsecond := getD_legc s.bmp r k 1 hk (by decide)
    rw [Nat.add_zero] at hfirst
    rw [hfirst, hsecond, hy, ← toNat_extractLsb'_byte]
    exact ⟨cell_of_lt _, cell_of_ge _⟩

end Sys2Proof.Machine

/-! The legacy hex parser (45_legacyhex.md rules R130 to R134): the tokens without a digit, the flags of the classifying
commands as the statements write them, then the bitmap the classifier reads and what the three commands leave. The
constraints of rule R5 come first, for the bound on `OUT`. -/

namespace Sys2Proof

theorem Config.wf_iff (c : Config) :
    c.wf = true ↔
      768 ≤ c.inCap ∧ c.inCap ≤ 4096 ∧ 143 ≤ c.outCap ∧ (c.inCap + 1) / 2 ≤ c.outCap ∧ c.outCap ≤ 4096 := by
  simp [Config.wf, and_assoc]

end Sys2Proof

namespace Sys2Proof.Machine

open Spec (HasOpcode IsClassified)

/-! ### The tokenizer (rule R130) -/

theorem strip_eq_nil_of_no_hex (k : Bytes) (h : ∀ c ∈ k, isHex c = false) : strip k = [] :=
  List.filter_eq_nil_iff.mpr fun c hc => ne_true_of_eq_false (h c hc)

/-- Settles O21: whitespace closes a token (`tokz_append_ws`), a text without whitespace is one token (`tokz_run`), and
a token without a digit strips to nothing. -/
theorem tokenizerPairsEachTokenAlone : Obligations.TokenizerPairsEachTokenAlone := by
  unfold Obligations.TokenizerPairsEachTokenAlone
  simp only [← isWs_iff, ← isHex_iff, Bool.not_eq_true]
  refine ⟨tokz_append_ws, tokz_run, fun k hws hhex => ?_, rfl⟩
  calc tokz k = pairs (strip k) := tokz_run k hws
    _ = pairs [] := by rw [strip_eq_nil_of_no_hex k hhex]
    _ = [] := rfl

/-! ### TOKENIZE (rule R131) -/

theorem mtText_eq_decide (t : Bytes) : mtText t = decide (∃ k ∈ tokens t, (strip k).length = 0) := by
  rw [Bool.eq_iff_iff]
  simp [mtText, malformed]

/-- `IN` fits in `IN_CAP`, and rule R5 leaves room in `OUT` for a byte per two characters of a full `IN`. -/
theorem length_tokz_input_le_outCap (s : State) (h : s.Inv) : (tokz s.input).length ≤ s.cfg.outCap := by
  obtain ⟨hcfg, hinput, -⟩ := h
  obtain ⟨-, -, -, hhalf, -⟩ := (Config.wf_iff s.cfg).mp hcfg
  have htokz := length_tokz_le s.input
  omega

/-- Settles O22: MT is `mtText_eq_decide`, the two bounds are `length_tokz_le` and
`length_tokz_input_le_outCap`. -/
theorem tokenizeWritesLegacyBytes : Obligations.TokenizeWritesLegacyBytes := by
  refine ⟨hasOpcode_instrOfOp 0x8 (by decide), fun sp rn ib zp s => ⟨?_, ?_, ?_⟩⟩
  · rw [exec_tokenize, execTokenize, mtText_eq_decide]
    rfl
  · exact length_tokz_le s.input
  · exact length_tokz_input_le_outCap s

/-! ### The classifying commands (rules R132 to R134) -/

theorem lmAuto_eq_decide (n : Nat) : lmAuto n = decide (n ≠ 64 ∧ n ≠ 128) := by
  rw [Bool.eq_iff_iff]
  simp [lmAuto]

/-- On either side of the threshold the classifier is the frame decoder of that side. -/
theorem isClassified_auto (y : Bytes) : IsClassified y (auto y) := by
  unfold auto
  constructor
  · intro hlong
    rw [if_pos hlong]
    exact isFrame128_b128 y true
  · intro hshort
    rw [if_neg (Nat.not_le.mpr hshort)]
    exact isFrame64_b64 y

/-- Settles O24: the bitmap is `auto` of `IN`, read as `isClassified_auto` says. -/
theorem decautoClassifiesByLength : Obligations.DecautoClassifiesByLength := by
  refine ⟨hasOpcode_instrOfOp 0x9 (by decide), fun sp rn ib zp s => ⟨auto s.input, ?_, ?_⟩⟩
  · rw [exec_decauto, execDecauto, lmAuto_eq_decide]
    rfl
  · exact isClassified_auto s.input

/-- Settles O25: the bitmap is `auto` of the tokenizer's bytes, which are not placed in `OUT`. -/
theorem classifyTokenizesThenClassifies : Obligations.ClassifyTokenizesThenClassifies := by
  refine ⟨hasOpcode_instrOfOp 0xA (by decide), fun sp rn ib zp s => ⟨auto (tokz s.input), ?_, ?_⟩⟩
  · rw [exec_classify, execClassify, lmAuto_eq_decide, mtText_eq_decide]
    rfl
  · exact isClassified_auto (tokz s.input)

end Sys2Proof.Machine

/-! The line handler (46_linehandler.md rules R145 to R148): when four bytes are a C-array literal and which byte it is,
the search step by step, then what SCANC and LINE leave. -/

namespace Sys2Proof.Machine

open Spec (HasOpcode IsDigit digitValue)

/-! ### The literals (rule R145) -/

/-- `a b c d`, followed by `rest`, are a C-array literal, in the terms of the statements. -/
def IsLiteral (strict : Bool) (a b c d : Byte) (rest : Bytes) : Prop :=
  a = 0x30 ∧ b = 0x78 ∧ IsDigit c ∧ IsDigit d ∧ (strict = true → ∀ e ∈ rest.head?, ¬IsDigit e)

theorem strict_guard_iff (strict : Bool) (rest : Bytes) :
    (strict = false ∨ rest.head?.all (fun e => !isHex e) = true) ↔
      (strict = true → ∀ e ∈ rest.head?, ¬IsDigit e) := by
  simp only [← isHex_iff]
  cases strict <;> simp [Option.all_eq_true]

theorem carrMatch_of_isLiteral {strict : Bool} {a b c d : Byte} {rest : Bytes} (h : IsLiteral strict a b c d rest) :
    carrMatch strict a b c d rest = some (BitVec.ofNat 8 (16 * digitValue c + digitValue d)) := by
  obtain ⟨ha, hb, hc, hd, hguard⟩ := h
  rw [carrMatch, if_pos ⟨ha, hb, (strict_guard_iff strict rest).mpr hguard⟩, hexval?_of_isDigit hc,
    hexval?_of_isDigit hd, ← ofNat_append_ofNat_nibble (digitValue_lt hc) (digitValue_lt hd)]

/-- A match passes the guard, and both digits have a value. -/
theorem isLiteral_of_carrMatch {strict : Bool} {a b c d y : Byte} {rest : Bytes}
    (h : carrMatch strict a b c d rest = some y) : IsLiteral strict a b c d rest := by
  unfold carrMatch at h
  split at h
  next hguard =>
    obtain ⟨ha, hb, hstrict⟩ := hguard
    split at h
    next hi lo hc hd =>
      have digit (e : Byte) (v : Nib) (he : hexval? e = some v) : IsDigit e :=
        (isHex_iff e).mp (by rw [isHex, he, Option.isSome_some])
      exact ⟨ha, hb, digit c hi hc, digit d lo hd, (strict_guard_iff strict rest).mp hstrict⟩
    next => cases h
  next => cases h

theorem carrMatch_of_not_isLiteral {strict : Bool} {a b c d : Byte} {rest : Bytes}
    (h : ¬IsLiteral strict a b c d rest) : carrMatch strict a b c d rest = none :=
  Option.eq_none_iff_forall_ne_some.mpr fun _ hy => h (isLiteral_of_carrMatch hy)

/-! ### The search (rule R145) -/

theorem carr_of_isLiteral {strict : Bool} {a b c d : Byte} {rest : Bytes} (h : IsLiteral strict a b c d rest) :
    carr strict (a :: b :: c :: d :: rest) =
      BitVec.ofNat 8 (16 * digitValue c + digitValue d) :: carr strict rest := by
  rw [carr_cons, carrMatch_of_isLiteral h]

theorem carr_of_not_isLiteral {strict : Bool} {a b c d : Byte} {rest : Bytes} (h : ¬IsLiteral strict a b c d rest) :
    carr strict (a :: b :: c :: d :: rest) = carr strict (b :: c :: d :: rest) := by
  rw [carr_cons, carrMatch_of_not_isLiteral h]

/-- Two digits are a byte: nothing is truncated. -/
theorem toNat_ofNat_digits {c d : Byte} (hc : IsDigit c) (hd : IsDigit d) :
    (BitVec.ofNat 8 (16 * digitValue c + digitValue d)).toNat = 16 * digitValue c + digitValue d := by
  have hhigh := digitValue_lt hc
  have hlow := digitValue_lt hd
  rw [BitVec.toNat_ofNat, Nat.mod_eq_of_lt (by omega)]

/-- Settles O28: the four bytes in front are a literal (`carr_of_isLiteral`) or they are none
(`carr_of_not_isLiteral`). -/
theorem cArraySearchScansLeftToRight : Obligations.CArraySearchScansLeftToRight := by
  refine ⟨carr_of_short, fun strict a b c d rest => ⟨fun h => ?_, fun h => carr_of_not_isLiteral h⟩⟩
  have ⟨_, _, hc, hd, _⟩ := h
  exact ⟨_, toNat_ofNat_digits hc hd, carr_of_isLiteral h⟩

/-! ### SCANC (rule R146) -/

theorem one_le_length_iff (c : Bytes) : 1 ≤ c.length ↔ c ≠ [] := List.length_pos_iff

theorem decide_one_le_length (c : Bytes) : decide (1 ≤ c.length) = decide (c ≠ []) :=
  decide_eq_decide.mpr (one_le_length_iff c)

/-- Settles O30: CARR is `decide_one_le_length`, the bound is `length_carr_le`. -/
theorem scancWritesCArrayBytes : Obligations.ScancWritesCArrayBytes := by
  refine ⟨hasOpcode_instrOfOp 0xB (by decide), fun sp rn ib zp s => ⟨?_, ?_⟩⟩
  · rw [exec_scanc, execScanc, decide_one_le_length]
    rfl
  · have hlen := length_carr_le s.cfg.carrStrict s.input
    omega

/-! ### LINE (rules R147, R148) -/

theorem lineb_eq_ite (strict : Bool) (t : Bytes) :
    lineb strict t = if carr strict t = [] then tokz t else carr strict t := by
  simp only [lineb, one_le_length_iff, ne_eq, ite_not]

/-- MT of LINE: a malformed token counts on the legacy path only. -/
theorem mtLine_eq_decide (c t : Bytes) :
    (decide (c.length = 0) && mtText t) = decide (c = [] ∧ ∃ k ∈ tokens t, (strip k).length = 0) := by
  rw [mtText_eq_decide, Bool.decide_and, decide_eq_decide.mpr List.length_eq_zero_iff]

/-- Settles O31: `lineb_eq_ite` chooses the bytes, and `isClassified_auto` says what the classifier reads from them. -/
theorem lineTakesCArrayPathFirst : Obligations.LineTakesCArrayPathFirst := by
  refine ⟨hasOpcode_instrOfOp 0xC (by decide), fun sp rn ib zp s c y hc hy => ⟨auto y, ?_, isClassified_auto y⟩⟩
  subst hc
  rw [← lineb_eq_ite] at hy
  subst hy
  rw [exec_line, execLine, decide_one_le_length, lmAuto_eq_decide, mtLine_eq_decide]
  rfl

end Sys2Proof.Machine

/-! The system commands (47_system.md rules R155 to R157): the reset values first, and what the input window reads when
`IN` is empty; then what NOP, CLRIN and SRST leave. -/

namespace Sys2Proof.Machine

open Spec (HasOpcode)

/-! ### The reset values (10_state.md rule R23) -/

theorem blankBitmap_row (r : Fin 16) : blankBitmap[r] = 0 :=
  Vector.getElem_replicate r.isLt

/-- A reset differs from the reset state in the model's own fields and the level of the reset input only. -/
theorem State.toReset_eq_reset_with (s : State) :
    s.toReset = { State.reset with
      resetLine := s.resetLine, cfg := s.cfg, pending := s.pending, responses := s.responses } := rfl

/-! ### Reading an empty input buffer (20_memory.md rule R40) -/

theorem memRead_inlen_of_empty (s : State) (h : s.input = []) : s.memRead 0x0048 4 = .okWord 0 := by
  rw [memRead_inlen, h]
  rfl

theorem memRead_inWindow_of_empty (s : State) (h : s.input = []) (i : Nat) (hi : i < 4096) :
    s.memRead (0x1000 + i) 1 = .okByte 0 := by
  rw [memRead_inWindow s i hi, h, byteAt_of_ge [] i (Nat.zero_le i)]

/-! ### The obligations -/

/-- Settles O32: `execNop` is the identity. -/
theorem nopChangesNothing : Obligations.NopChangesNothing := by
  refine ⟨hasOpcode_instrOfOp 0x0 (by decide), fun sp rn ib zp s => ?_⟩
  rw [exec_nop, execNop]

/-- Settles O33: the next state has an empty `IN`, so the two reads are those of an empty buffer. -/
theorem clrinEmptiesInputAndFlags : Obligations.ClrinEmptiesInputAndFlags := by
  refine ⟨hasOpcode_instrOfOp 0xD (by decide), fun sp rn ib zp s =>
    ⟨{ s with input := [], status := Status.clear }, ?_, rfl, ?_, ?_⟩⟩
  · rw [exec_clrin, execClrin]
  · exact memRead_inlen_of_empty _ rfl
  · exact memRead_inWindow_of_empty _ rfl

/-- Settles O35: SRST answers `State.toReset`, whose bitmap is blank and which is the reset state by
`State.toReset_eq_reset_with`. -/
theorem srstPutsWholeStateToReset : Obligations.SrstPutsWholeStateToReset := by
  refine ⟨hasOpcode_instrOfOp 0xF (by decide), fun sp rn ib zp s => ⟨blankBitmap, blankBitmap_row, ?_, ?_⟩⟩
  · rw [exec_srst, execSrst]
    rfl
  · rw [exec_srst, execSrst, State.toReset_eq_reset_with]

end Sys2Proof.Machine

/-! The command word, both ways (30_encoding.md rules R50 to R56): a command is rebuilt from the fields of its word,
and a word from the fields it decodes by. -/

namespace Sys2Proof

open Laws.OpcodeField (fields)

/-! ### From the command to its word and back -/

/-- The word of every command holds its fields: the family `OpcodeField` for all sixteen commands at once. -/
theorem encode_fields (i : Instr) : Laws.OpcodeField.Statement i := by
  cases i with
  | nop => exact Laws.OpcodeField.nop ..
  | enc128 => exact Laws.OpcodeField.enc128 ..
  | dec128 => exact Laws.OpcodeField.dec128 ..
  | enc64 => exact Laws.OpcodeField.enc64 ..
  | dec64 => exact Laws.OpcodeField.dec64 ..
  | enctok => exact Laws.OpcodeField.enctok ..
  | dectok => exact Laws.OpcodeField.dectok ..
  | encleg => exact Laws.OpcodeField.encleg ..
  | tokenize => exact Laws.OpcodeField.tokenize ..
  | decauto => exact Laws.OpcodeField.decauto ..
  | classify => exact Laws.OpcodeField.classify ..
  | scanc => exact Laws.OpcodeField.scanc ..
  | line => exact Laws.OpcodeField.line ..
  | clrin => exact Laws.OpcodeField.clrin ..
  | illegal0E => exact Laws.OpcodeField.illegal0E ..
  | srst => exact Laws.OpcodeField.srst ..

/-- The row of rule R52 at a command's opcode, with the command's options, is the command. -/
theorem instrOfOp_fields (i : Instr) :
    instrOfOp (fields i).1 (fields i).2.1 (fields i).2.2.1
      (fields i).2.2.2.1 (fields i).2.2.2.2 = i := by
  cases i <;> rfl

theorem decode_append_encode (i : Instr) (hi : BitVec 24) : decode (hi ++ encode i) = i := by
  have hfields := encode_fields i
  rw [Laws.OpcodeField.Statement] at hfields
  have hi' := instrOfOp_fields i
  rw [← hfields] at hi'
  rw [decode_append]
  exact hi'

/-! ### From the word to its command and back -/

theorem encode_instrOfOp (op : Nib) (sp rn ib zp : Bool) :
    encode (instrOfOp op sp rn ib zp) = commandWord op sp rn ib zp := by
  have rows : ∀ (op : Nib) (sp rn ib zp : Bool),
      encode (instrOfOp op sp rn ib zp) = commandWord op sp rn ib zp := by decide
  exact rows op sp rn ib zp

/-- Bit by bit: bits 3:0 come from the opcode, each of bits 7:4 from one option (rules R55, R56). -/
theorem commandWord_of_bits (y : Byte) :
    commandWord (y.extractLsb' 0 4) (y.getLsbD 4) (y.getLsbD 5) (y.getLsbD 6) (y.getLsbD 7) = y := by
  apply BitVec.eq_of_getLsbD_eq
  intro i hi
  interval_cases i <;> simp [commandWord]

theorem encode_decode_append (hi : BitVec 24) (lo : Byte) : encode (decode (hi ++ lo)) = lo := by
  rw [decode_append, encode_instrOfOp, commandWord_of_bits]

/-- Settles O1: `decode_append_encode` is the first half; every word is its high 24 bits and its low byte, so
`encode_decode_append` is the second. -/
theorem decodeEncodeRoundTrip : Obligations.DecodeEncodeRoundTrip := by
  refine ⟨decode_append_encode, fun w => ?_⟩
  conv_lhs => rw [← append_extract_byte w]
  exact encode_decode_append _ _

/-- Settles O2: the ten words are closed terms, and the decoder computes. -/
theorem commandWordsDecode : Obligations.CommandWordsDecode := by
  unfold Obligations.CommandWordsDecode
  decide

/-! ### The opcode of a written value -/

/-- The opcode of a command (rule R52), as a number. -/
def opcodeOf (i : Instr) : Nat := (fields i).1.toNat

theorem opcodeOf_decode (w : Row) : opcodeOf (decode w) = Spec.opcode w := by
  have hfields := encode_fields (decode w)
  rw [Laws.OpcodeField.Statement, decodeEncodeRoundTrip.2 w] at hfields
  rw [opcodeOf, ← hfields, BitVec.extractLsb'_toNat]
  simp [Spec.opcode]

end Sys2Proof

/-! What a command and a step can do to the registers of 10_state.md rule R23, said once and by opcode: the statements
about who writes what are read off `CommandEffect` and `StepEffect`. -/

namespace Sys2Proof.Machine

/-! ### Commands -/

/-- What a command with opcode `op` does to the state `s` (30_encoding.md rule R52, column "Writes"), with the result
flags it may set (10_state.md rule R18) and the room its output needs (00_scope.md rule R5). -/
inductive CommandEffect (s : State) : Nat → State → Prop where
  | nothing : CommandEffect s 0x0 s
  | output (op : Nat) {o : Bytes} {carr mt : Bool} (hop : op ∈ [0x1, 0x3, 0x5, 0x7, 0x8, 0xB])
      (hroom : s.Inv → o.length ≤ s.cfg.outCap) (hcarr : carr = true → op = 0xB) (hmt : mt = true → op = 0x8) :
      CommandEffect s op ((s.setOutput o).setResult false false carr false mt)
  | bitmap (op : Nat) {b : Bitmap} {f128 carr lm mt : Bool} (hop : op ∈ [0x2, 0x4, 0x6, 0x9, 0xA, 0xC])
      (hf128 : f128 = true → op ∈ [0x2, 0x9, 0xA, 0xC]) (hcarr : carr = true → op = 0xC)
      (hmt : mt = true → op ∈ [0x6, 0xA, 0xC]) :
      CommandEffect s op ((s.setBitmap b).setResult false f128 carr lm mt)
  | clearInput : CommandEffect s 0xD { s with input := [], status := Status.clear }
  | error : CommandEffect s 0xE (s.setResult true false false false false)
  | reset : CommandEffect s 0xF s.toReset

/-- At most 143 bytes fit in every output buffer (00_scope.md rule R5). -/
theorem length_le_outCap_of_le {s : State} {o : Bytes} (ho : o.length ≤ 143) (h : s.Inv) :
    o.length ≤ s.cfg.outCap := by
  have hcfg := (Config.wf_iff s.cfg).mp h.1
  omega

/-- A literal takes four characters of `IN`, and rule R5 leaves room in `OUT` for a byte per two. -/
theorem length_carr_input_le_outCap {s : State} (h : s.Inv) :
    (carr s.cfg.carrStrict s.input).length ≤ s.cfg.outCap := by
  obtain ⟨hcfg, hinput, -⟩ := h
  have hcfg := (Config.wf_iff s.cfg).mp hcfg
  have hcarr := length_carr_le s.cfg.carrStrict s.input
  omega

theorem commandEffect_exec (i : Instr) (s : State) : ∃ t, exec i s = .next t ∧ CommandEffect s (opcodeOf i) t := by
  cases i with
  | nop => exact ⟨_, rfl, .nothing⟩
  | enc128 =>
    exact ⟨_, rfl, .output 0x1 (by decide) (length_le_outCap_of_le (by simp [length_f128])) (by simp) (by simp)⟩
  | enc64 =>
    exact ⟨_, rfl, .output 0x3 (by decide) (length_le_outCap_of_le (by simp [length_f64])) (by simp) (by simp)⟩
  | enctok =>
    exact ⟨_, rfl, .output 0x5 (by decide) (length_le_outCap_of_le (length_tokenc_le _ _)) (by simp) (by simp)⟩
  | encleg =>
    exact ⟨_, rfl, .output 0x7 (by decide) (length_le_outCap_of_le (by simp [length_legc])) (by simp) (by simp)⟩
  | tokenize => exact ⟨_, rfl, .output 0x8 (by decide) (length_tokz_input_le_outCap s) (by simp) fun _ => rfl⟩
  | scanc => exact ⟨_, rfl, .output 0xB (by decide) length_carr_input_le_outCap (fun _ => rfl) (by simp)⟩
  | dec128 => exact ⟨_, rfl, .bitmap 0x2 (by decide) (fun _ => by decide) (by simp) (by simp)⟩
  | dec64 => exact ⟨_, rfl, .bitmap 0x4 (by decide) (by simp) (by simp) (by simp)⟩
  | dectok => exact ⟨_, rfl, .bitmap 0x6 (by decide) (by simp) (by simp) fun _ => by decide⟩
  | decauto => exact ⟨_, rfl, .bitmap 0x9 (by decide) (fun _ => by decide) (by simp) (by simp)⟩
  | classify => exact ⟨_, rfl, .bitmap 0xA (by decide) (fun _ => by decide) (by simp) fun _ => by decide⟩
  | line => exact ⟨_, rfl, .bitmap 0xC (by decide) (fun _ => by decide) (fun _ => rfl) fun _ => by decide⟩
  | clrin => exact ⟨_, rfl, .clearInput⟩
  | illegal0E => exact ⟨_, rfl, .error⟩
  | srst => exact ⟨_, rfl, .reset⟩

theorem commandEffect_of_exec {w : Row} {s t : State} (h : exec (decode w) s = .next t) :
    CommandEffect s (Spec.opcode w) t := by
  obtain ⟨u, hu, heffect⟩ := commandEffect_exec (decode w) s
  rw [hu] at h
  cases h
  rwa [opcodeOf_decode] at heffect

/-! ### Steps -/

/-- An event of the reset input resets the state when it releases an asserted input; every other event leaves the
registers alone (70_reset_and_hazards.md rule R185). -/
theorem State.driveReset_cases (s : State) (b : Bool) :
    (b = false ∧ s.resetLine = true ∧ s.driveReset b = { s.toReset with resetLine := false }) ∨
    ∃ l, s.driveReset b = { s with resetLine := l } := by
  cases b with
  | true => exact .inr ⟨true, s.driveReset_assert⟩
  | false =>
    by_cases hr : s.resetLine = true
    · exact .inl ⟨rfl, hr, s.driveReset_release hr⟩
    · exact .inr ⟨s.resetLine, s.driveReset_idle (Bool.eq_false_of_not_eq_true hr)⟩

/-- What a step does to the registers, and which input made it do so. -/
inductive StepEffect (s : State) : State → Prop where
  | quiet (l : Bool) (p : List HostInput) (q : List Response) :
      StepEffect s { s with resetLine := l, pending := p, responses := q }
  | release {rest : List HostInput} (hp : s.pending = .resetInput false :: rest) (hr : s.resetLine = true) :
      StepEffect s { (s.withPending rest).toReset with resetLine := false }
  | rowWrite {r : Fin 16} {v : Row} {rest : List HostInput} (hp : s.pending = .write (4 * r.val) 4 v :: rest) :
      StepEffect s (((s.withPending rest).writeRow r v).respond .ok)
  | command {w : Row} {rest : List HostInput} {u : State} (hp : s.pending = .write 0x0040 4 w :: rest)
      (hu : CommandEffect (s.withPending rest) (Spec.opcode w) u) : StepEffect s (u.respond .ok)
  | push {v : Row} {rest : List HostInput} (hp : s.pending = .write 0x0050 4 v :: rest) :
      StepEffect s (((s.withPending rest).pushByte v).respond .ok)

theorem stepEffect_of_step {s t : State} (h : step s = .next t) : StepEffect s t := by
  rcases step_cases s t h with ⟨-, rfl⟩ | ⟨a, rest, hp, hcase⟩
  · exact .quiet _ _ _
  rcases hcase with ⟨b, rfl, rfl⟩ | ⟨-, addr, size, rfl, rfl⟩ | ⟨-, r, v, rfl, rfl⟩ | ⟨-, w, u, rfl, hu, rfl⟩ |
    ⟨-, v, rfl, rfl⟩ | ⟨-, -, addr, size, v, rfl, rfl⟩
  · rcases (s.withPending rest).driveReset_cases b with ⟨rfl, hr, hreset⟩ | ⟨l, hlevel⟩
    · exact hreset ▸ .release hp hr
    · exact hlevel ▸ .quiet l rest s.responses
  · exact .quiet _ _ _
  · exact .rowWrite hp
  · exact .command hp (commandEffect_of_exec hu)
  · exact .push hp
  · exact .quiet _ _ _

/-! ### The capacity invariant -/

/-- A command writes `OUT` within `OUT_CAP` and does not lengthen `IN`. -/
theorem CommandEffect.inv {s t : State} {op : Nat} (h : CommandEffect s op t) (hs : s.Inv) : t.Inv := by
  have ⟨hcfg, hinput, houtput⟩ := hs
  cases h with
  | nothing | bitmap | error => exact hs
  | output _ _ hroom => exact ⟨hcfg, hinput, hroom hs⟩
  | clearInput => exact ⟨hcfg, Nat.zero_le _, houtput⟩
  | reset => exact ⟨hcfg, Nat.zero_le _, Nat.zero_le _⟩

/-- A push lengthens `IN` only where it has room (10_state.md rule R20). -/
theorem State.pushByte_inv {s : State} (w : Row) (hs : s.Inv) : (s.pushByte w).Inv := by
  have ⟨hcfg, hinput, houtput⟩ := hs
  by_cases hroom : s.input.length < s.cfg.inCap
  · rw [s.pushByte_of_room w hroom]
    refine ⟨hcfg, ?_, houtput⟩
    rw [List.length_append]
    exact hroom
  · rw [s.pushByte_of_full w hroom]
    exact hs

/-- Settles O45, by what a step can do: the invariant speaks of the parameters, `IN` and `OUT` only. -/
theorem stepKeepsCapacities : Obligations.StepKeepsCapacities := by
  intro s t hs h
  cases stepEffect_of_step h with
  | quiet | rowWrite => exact hs
  | release => exact ⟨hs.1, Nat.zero_le _, Nat.zero_le _⟩
  | command _ hu => exact hu.inv hs
  | push => exact State.pushByte_inv _ hs

/-- Settles O46: the values are those of the definition, and they meet rule R5. -/
theorem resetStateValues : Obligations.ResetStateValues :=
  ⟨blankBitmap_row, rfl, rfl, rfl, rfl, by decide, Nat.zero_le _, Nat.zero_le _⟩

end Sys2Proof.Machine

/-! Who writes what (10_state.md rules R13 to R20): each statement is a case split on `StepEffect`, with a lemma about
`CommandEffect` for the writes to CMD. -/

namespace Sys2Proof.Machine

open Spec (HasOpcode opcode)

/-! ### A write to CMD -/

theorem memWrite_cmd (s : State) (w : Row) : memWrite s 0x0040 4 w = answer .ok (exec (decode w) s) := rfl

theorem step_cmd (s : State) (w : Row) (rest : List HostInput) (hr : s.resetLine = false)
    (hp : s.pending = .write 0x0040 4 w :: rest) :
    step s = answer .ok (exec (decode w) { s with pending := rest }) := by
  rw [step_write s _ _ _ rest hp hr, memWrite_cmd, State.withPending]

/-! ### The registers a command writes -/

theorem CommandEffect.opcode_of_bmp_ne {s t : State} {op : Nat} (h : CommandEffect s op t) (hne : t.bmp ≠ s.bmp) :
    op ∈ [0x2, 0x4, 0x6, 0x9, 0xA, 0xC, 0xF] := by
  cases h with
  | nothing | output | clearInput | error => exact absurd rfl hne
  | bitmap _ hop => exact List.mem_append_left [0xF] hop
  | reset => decide

theorem CommandEffect.opcode_of_input_ne {s t : State} {op : Nat} (h : CommandEffect s op t)
    (hne : t.input ≠ s.input) : op ∈ [0xD, 0xF] ∧ t.input = [] := by
  cases h with
  | nothing | output | bitmap | error => exact absurd rfl hne
  | clearInput | reset => exact ⟨by decide, rfl⟩

theorem CommandEffect.opcode_of_output_ne {s t : State} {op : Nat} (h : CommandEffect s op t)
    (hne : t.output ≠ s.output) : op ∈ [0x1, 0x3, 0x5, 0x7, 0x8, 0xB, 0xF] := by
  cases h with
  | nothing | bitmap | clearInput | error => exact absurd rfl hne
  | output _ hop => exact List.mem_append_left [0xF] hop
  | reset => decide

/-- IOV is no result flag: only the two commands that clear all six flags touch it (rule R18). -/
theorem CommandEffect.iov_cases {s t : State} {op : Nat} (h : CommandEffect s op t) :
    t.status.iov = s.status.iov ∨ (op ∈ [0xD, 0xF] ∧ t.status.iov = false) := by
  cases h with
  | nothing | output | bitmap | error => exact .inl rfl
  | clearInput | reset => exact .inr ⟨by decide, rfl⟩

theorem CommandEffect.cfg_eq {s t : State} {op : Nat} (h : CommandEffect s op t) : t.cfg = s.cfg := by
  cases h <;> rfl

/-! ### The result flags a command leaves (10_state.md rule R18, 60_exceptions.md rule R166) -/

theorem CommandEffect.eq_of_nop {s t : State} (h : CommandEffect s 0x0 t) : t = s := by
  cases h with
  | nothing => rfl
  | output _ hop | bitmap _ hop => exact absurd hop (by decide)

theorem CommandEffect.err_eq {s t : State} {op : Nat} (h : CommandEffect s op t) (hop : op ≠ 0x0) :
    t.status.err = decide (op = 0xE) := by
  cases h with
  | nothing => exact absurd rfl hop
  | output _ hmem | bitmap _ hmem => exact (decide_eq_false (ne_of_mem_of_not_mem hmem (by decide))).symm
  | clearInput | error | reset => rfl

theorem CommandEffect.opcode_of_f128 {s t : State} {op : Nat} (h : CommandEffect s op t) (hop : op ≠ 0x0)
    (hf : t.status.f128 = true) : op ∈ [0x2, 0x9, 0xA, 0xC] := by
  cases h with
  | nothing => exact absurd rfl hop
  | bitmap _ _ hf128 => exact hf128 hf
  | output | clearInput | error | reset => cases hf

theorem CommandEffect.opcode_of_carr {s t : State} {op : Nat} (h : CommandEffect s op t) (hop : op ≠ 0x0)
    (hf : t.status.carr = true) : op ∈ [0xB, 0xC] := by
  cases h with
  | nothing => exact absurd rfl hop
  | output _ _ _ hcarr => rw [hcarr hf]; decide
  | bitmap _ _ _ hcarr => rw [hcarr hf]; decide
  | clearInput | error | reset => cases hf

theorem CommandEffect.opcode_of_lm {s t : State} {op : Nat} (h : CommandEffect s op t) (hop : op ≠ 0x0)
    (hf : t.status.lm = true) : op ∈ [0x2, 0x4, 0x6, 0x9, 0xA, 0xC] := by
  cases h with
  | nothing => exact absurd rfl hop
  | bitmap _ hmem => exact hmem
  | output | clearInput | error | reset => cases hf

theorem CommandEffect.opcode_of_mt {s t : State} {op : Nat} (h : CommandEffect s op t) (hop : op ≠ 0x0)
    (hf : t.status.mt = true) : op ∈ [0x6, 0x8, 0xA, 0xC] := by
  cases h with
  | nothing => exact absurd rfl hop
  | output _ _ _ _ hmt => rw [hmt hf]; decide
  | bitmap _ _ _ _ hmt => exact List.Sublist.subset (by decide) (hmt hf)
  | clearInput | error | reset => cases hf

/-- Settles O52: one lemma about `CommandEffect` for each flag. -/
theorem resultFlagsByOpcode : Obligations.ResultFlagsByOpcode := by
  intro w s t h
  have heffect := commandEffect_of_exec h
  constructor
  · intro hop
    rw [hop] at heffect
    rw [heffect.eq_of_nop]
  · exact fun hop => ⟨heffect.err_eq hop, heffect.opcode_of_f128 hop, heffect.opcode_of_carr hop,
      heffect.opcode_of_lm hop, heffect.opcode_of_mt hop⟩

/-! ### Steps that change a register -/

/-- Settles O49, by what a step can do: a push leaves the bitmap, a command's opcode is `opcode_of_bmp_ne`. -/
theorem bitmapWriters : Obligations.BitmapWriters := by
  intro s t h hne
  cases stepEffect_of_step h with
  | quiet => exact absurd rfl hne
  | release hp hr => exact ⟨_, _, hp, .inr (.inr ⟨hr, rfl⟩)⟩
  | rowWrite hp => exact ⟨_, _, hp, .inl ⟨_, _, rfl⟩⟩
  | command hp hu => exact ⟨_, _, hp, .inr (.inl ⟨_, rfl, hu.opcode_of_bmp_ne hne⟩)⟩
  | push => exact absurd (State.pushByte_bmp _ _) hne

/-- A push that changes `IN` appends one byte. -/
theorem State.pushByte_input_of_ne (s : State) (w : Row) (hne : (s.pushByte w).input ≠ s.input) :
    (s.pushByte w).input = s.input ++ [w.setWidth 8] := by
  by_cases hroom : s.input.length < s.cfg.inCap
  · rw [s.pushByte_of_room w hroom]
  · rw [s.pushByte_of_full w hroom] at hne
    exact absurd rfl hne

/-- Settles O50, by what a step can do: a push that is not dropped appends, and the others empty `IN`. -/
theorem inputWriters : Obligations.InputWriters := by
  intro s t h hne
  cases stepEffect_of_step h with
  | quiet | rowWrite => exact absurd rfl hne
  | release hp hr => exact ⟨_, _, hp, .inr (.inr ⟨hr, rfl, rfl⟩)⟩
  | command hp hu =>
    obtain ⟨hop, hempty⟩ := hu.opcode_of_input_ne hne
    exact ⟨_, _, hp, .inr (.inl ⟨_, rfl, hop, hempty⟩)⟩
  | push hp => exact ⟨_, _, hp, .inl ⟨_, _, rfl, State.pushByte_input_of_ne _ _ hne⟩⟩

/-- Settles O51, by what a step can do: neither host write reaches `OUT`. -/
theorem outputWriters : Obligations.OutputWriters := by
  intro s t h hne
  cases stepEffect_of_step h with
  | quiet | rowWrite => exact absurd rfl hne
  | release hp hr => exact ⟨_, _, hp, .inr ⟨hr, rfl⟩⟩
  | command hp hu => exact ⟨_, _, hp, .inl ⟨_, rfl, hu.opcode_of_output_ne hne⟩⟩
  | push => exact absurd (State.pushByte_output _ _) hne

/-! ### Steps that change IOV or ERR -/

/-- A push touches no flag but IOV, which it sets when `IN` is full (10_state.md rule R20). -/
theorem State.pushByte_status_cases (s : State) (w : Row) :
    (s.pushByte w).status = s.status ∨
    (s.cfg.inCap ≤ s.input.length ∧ (s.pushByte w).status = { s.status with iov := true }) := by
  by_cases hroom : s.input.length < s.cfg.inCap
  · exact .inl (by rw [s.pushByte_of_room w hroom])
  · exact .inr ⟨Nat.not_lt.mp hroom, by rw [s.pushByte_of_full w hroom]⟩

theorem StepEffect.iov_cases {s t : State} (h : StepEffect s t) :
    t.status.iov = s.status.iov ∨
    (t.status.iov = true ∧ ∃ (v : Row) (rest : List HostInput),
      s.pending = .write 0x0050 4 v :: rest ∧ s.cfg.inCap ≤ s.input.length) ∨
    (t.status.iov = false ∧ ∃ (a : HostInput) (rest : List HostInput), s.pending = a :: rest ∧
      ((∃ w : Row, a = .write 0x0040 4 w ∧ opcode w ∈ [0xD, 0xF]) ∨
        (s.resetLine = true ∧ a = .resetInput false))) := by
  cases h with
  | quiet | rowWrite => exact .inl rfl
  | release hp hr => exact .inr (.inr ⟨rfl, _, _, hp, .inr ⟨hr, rfl⟩⟩)
  | command hp hu =>
    rcases hu.iov_cases with hkeep | ⟨hop, hclear⟩
    · exact .inl hkeep
    · exact .inr (.inr ⟨hclear, _, _, hp, .inl ⟨_, rfl, hop⟩⟩)
  | @push v rest hp =>
    rcases (s.withPending rest).pushByte_status_cases v with hkeep | ⟨hfull, hset⟩
    · exact .inl (congrArg Status.iov hkeep)
    · exact .inr (.inl ⟨congrArg Status.iov hset, v, rest, hp, hfull⟩)

/-- Settles O53: of the three cases of `StepEffect.iov_cases`, only one agrees with each change of the flag. -/
theorem overflowFlagIsSticky : Obligations.OverflowFlagIsSticky := by
  intro s t h
  rcases (stepEffect_of_step h).iov_cases with hkeep | ⟨hon, hpush⟩ | ⟨hoff, hclear⟩
  · rw [hkeep]
    exact ⟨fun hf ht => absurd (hf.symm.trans ht) (by decide), fun ht hf => absurd (hf.symm.trans ht) (by decide)⟩
  · exact ⟨fun _ _ => hpush, fun _ hf => absurd (hon.symm.trans hf) (by decide)⟩
  · exact ⟨fun _ ht => absurd (hoff.symm.trans ht) (by decide), fun _ _ => hclear⟩

theorem StepEffect.err_cases {s t : State} (h : StepEffect s t) :
    t.status.err = s.status.err ∨
    (t.status.err = true ∧ ∃ (w : Row) (rest : List HostInput),
      s.pending = .write 0x0040 4 w :: rest ∧ opcode w = 0xE) ∨
    (t.status.err = false ∧ ∃ (a : HostInput) (rest : List HostInput), s.pending = a :: rest ∧
      ((∃ w : Row, a = .write 0x0040 4 w ∧ opcode w ∉ [0x0, 0xE]) ∨
        (s.resetLine = true ∧ a = .resetInput false))) := by
  cases h with
  | quiet | rowWrite => exact .inl rfl
  | release hp hr => exact .inr (.inr ⟨rfl, _, _, hp, .inr ⟨hr, rfl⟩⟩)
  | @command w rest u hp hu =>
    by_cases hnop : opcode w = 0x0
    · exact .inl (congrArg (·.status.err) (hnop ▸ hu).eq_of_nop)
    have herr := hu.err_eq hnop
    by_cases hop : opcode w = 0xE
    · exact .inr (.inl ⟨herr.trans (decide_eq_true hop), w, rest, hp, hop⟩)
    · exact .inr (.inr ⟨herr.trans (decide_eq_false hop), _, rest, hp, .inl ⟨w, rfl, by simp [hnop, hop]⟩⟩)
  | @push v rest hp =>
    refine .inl ?_
    rcases (s.withPending rest).pushByte_status_cases v with hkeep | ⟨-, hset⟩
    · exact congrArg Status.err hkeep
    · exact (congrArg Status.err hset).trans rfl

/-- Settles O34: the step is the one of `StepRunsDecodedCommand` for the unassigned row; the last clause reads
`StepEffect.err_cases` as O53 reads IOV's. -/
theorem unassignedOpcodeSetsErrOnly : Obligations.UnassignedOpcodeSetsErrOnly := by
  refine ⟨hasOpcode_instrOfOp 0xE (by decide), fun _ _ _ _ _ => rfl, ?step, ?other, ?changes⟩
  case step =>
    intro s w rest hr hop hp
    rw [step_cmd s w rest hr hp, decode_of_opcode w 0xE hop]
    rfl
  case other =>
    intro w s t h hop
    simp only [List.mem_cons, List.not_mem_nil, or_false, not_or] at hop
    exact ((commandEffect_of_exec h).err_eq hop.1).trans (decide_eq_false hop.2)
  case changes =>
    intro s t h
    rcases (stepEffect_of_step h).err_cases with hkeep | ⟨hon, hset⟩ | ⟨hoff, hclear⟩
    · rw [hkeep]
      exact ⟨fun hf ht => absurd (hf.symm.trans ht) (by decide), fun ht hf => absurd (hf.symm.trans ht) (by decide)⟩
    · exact ⟨fun _ _ => hset, fun _ hf => absurd (hon.symm.trans hf) (by decide)⟩
    · exact ⟨fun _ ht => absurd (hoff.symm.trans ht) (by decide), fun _ _ => hclear⟩

end Sys2Proof.Machine

/-! The host port and whole runs (20_memory.md rule R36, 60_exceptions.md rule R165, 70_reset_and_hazards.md rules R185
to R195): what one served input leaves in the machine's own fields, when a step goes on, then runs of many steps. -/

namespace Sys2Proof.Machine

open Spec (pushes)

/-! ### One served input -/

/-- Settles O36: both clauses are `step_cmd`, with what `answer` does written out. -/
theorem stepRunsDecodedCommand : Obligations.StepRunsDecodedCommand := by
  constructor
  · intro s w rest hr hp
    rw [step_cmd s w rest hr hp]
    cases exec (decode w) { s with pending := rest } <;> rfl
  · intro s nbits w
    have hstep : step (s.withFetchWord nbits w) =
        answer .ok (exec (decode (BitVec.ofNat 32 w)) { s with resetLine := false }) :=
      step_cmd (s.withFetchWord nbits w) _ _ rfl rfl
    rw [hstep]
    cases exec (decode (BitVec.ofNat 32 w)) { s with resetLine := false } <;> rfl

/-- Settles O38: a read looks at no field that its step changes. -/
theorem readsChangeNoState : Obligations.ReadsChangeNoState := by
  intro s addr size rest hr hp
  exact ⟨_, step_read s addr size rest hp hr, rfl, rfl⟩

/-- While the reset input is asserted no host access is accepted (70_reset_and_hazards.md rule R185, log 6). -/
theorem step_refused (s : State) (a : HostInput) (rest : List HostInput) (hr : s.resetLine = true)
    (hp : s.pending = a :: rest) (ha : ∀ b, a ≠ .resetInput b) : step s = .refused .accessDuringReset := by
  rw [step_serve s a rest hp]
  cases a with
  | resetInput b => exact absurd rfl (ha b)
  | read | write => exact if_pos hr

/-- Settles O43: the release is `State.driveReset_release`, the refusal `step_refused`. -/
theorem resetInputRelease : Obligations.ResetInputRelease := by
  refine ⟨fun s rest hr hp => ?_, step_refused⟩
  rw [step_serve s _ rest hp, serveInput, (s.withPending rest).driveReset_release hr]
  rfl

/-! ### When a step goes on -/

theorem memWrite_next (s : State) (addr size : Nat) (v : Row) : ∃ (t : State) (r : Response),
    memWrite s addr size v = .next t ∧ t.resetLine = s.resetLine ∧ t.cfg = s.cfg ∧ t.pending = s.pending ∧
    t.responses = s.responses ++ [r] := by
  rcases memWrite_cases s addr size v with ⟨r, -, -, hw⟩ | ⟨-, -, hw⟩ | ⟨-, -, hw⟩ | ⟨-, hw⟩
  · exact ⟨_, .ok, hw, rfl, rfl, rfl, rfl⟩
  · obtain ⟨b, x, o, f, hx⟩ := exec_next (decode v) s
    rw [hx] at hw
    exact ⟨_, .ok, hw, rfl, rfl, rfl, rfl⟩
  · exact ⟨_, .ok, hw, by simp, by simp, by simp, by simp⟩
  · exact ⟨_, .busError, hw, rfl, rfl, rfl, rfl⟩

/-- With reset released, a host access is served and answered once. -/
theorem step_access (s : State) (a : HostInput) (rest : List HostInput) (hr : s.resetLine = false)
    (hp : s.pending = a :: rest) (ha : ∀ b, a ≠ .resetInput b) : ∃ (t : State) (r : Response),
    step s = .next t ∧ t.resetLine = false ∧ t.cfg = s.cfg ∧ t.pending = rest ∧ t.responses = s.responses ++ [r] := by
  cases a with
  | resetInput b => exact absurd rfl (ha b)
  | read addr size => exact ⟨_, _, step_read s addr size rest hp hr, hr, rfl, rfl, rfl⟩
  | write addr size v =>
    obtain ⟨t, r, hw, hreset, hcfg, hpending, hresponses⟩ := memWrite_next (s.withPending rest) addr size v
    exact ⟨t, r, (step_write s addr size v rest hp hr).trans hw, hreset.trans hr, hcfg, hpending, hresponses⟩

theorem accepting_of_step {s t : State} (h : step s = .next t) : s.Accepting := by
  by_cases hr : s.resetLine = true
  · refine .inr fun a ha => ?_
    by_contra! hne
    obtain ⟨rest, hp⟩ := List.head?_eq_some_iff.mp ha
    rw [step_refused s a rest hr hp hne] at h
    cases h
  · exact .inl (Bool.eq_false_of_not_eq_true hr)

theorem step_of_accepting {s : State} (h : s.Accepting) : ∃ t, step s = .next t := by
  cases hp : s.pending with
  | nil => exact ⟨s, step_idle s hp⟩
  | cons a rest =>
    by_cases ha : ∃ b, a = .resetInput b
    · obtain ⟨b, rfl⟩ := ha
      exact ⟨_, step_serve s _ rest hp⟩
    · rcases h with hr | hevent
      · obtain ⟨t, -, ht, -⟩ := step_access s a rest hr hp (not_exists.mp ha)
        exact ⟨t, ht⟩
      · exact absurd (hevent a (by rw [hp]; rfl)) ha

/-- Settles O47: `step_refused` stops every other step, and each input of an accepting state is served. -/
theorem acceptedInputsComplete : Obligations.AcceptedInputsComplete :=
  fun _ => ⟨fun ⟨_, h⟩ => accepting_of_step h, step_of_accepting⟩

theorem StepEffect.cfg_eq {s t : State} (h : StepEffect s t) : t.cfg = s.cfg := by
  cases h with
  | quiet | release | rowWrite => rfl
  | command _ hu => exact hu.cfg_eq
  | push => exact State.pushByte_cfg _ _

/-- Settles O48: the command is `exec` of the decoded word, which always goes on and leaves the model's own fields. -/
theorem commandsNeverTrap : Obligations.CommandsNeverTrap := by
  refine ⟨fun s w rest hr hp => ?_, fun s t h => (stepEffect_of_step h).cfg_eq⟩
  obtain ⟨u, hu, -⟩ := commandEffect_exec (decode w) { s with pending := rest }
  obtain ⟨hreset, -, hpending, hresponses⟩ := exec_keeps _ _ _ hu
  refine ⟨u.respond .ok, ?_, hpending, hreset.trans hr, congrArg (· ++ [Response.ok]) hresponses⟩
  rw [step_cmd s w rest hr hp, hu, answer_next]

/-! ### Runs -/

theorem run_succ {s t : State} (n : Nat) (h : step s = .next t) :
    Host.Core.run Sys2Proof.core (n + 1) s = Host.Core.run Sys2Proof.core n t := by
  have hcore : Sys2Proof.core.step s = .next t := h
  simp only [Host.Core.run, hcore]

/-- Settles O44, by induction on the accesses: each is served by `step_access`. -/
theorem everyRunCompletes : Obligations.EveryRunCompletes := by
  intro s hr haccess
  generalize hp : s.pending = inputs at haccess
  induction inputs generalizing s with
  | nil => exact ⟨s, rfl, hp, hr, rfl, rfl, [], List.append_nil _⟩
  | cons a rest ih =>
    obtain ⟨hfirst, hrest⟩ := List.forall_mem_cons.mp haccess
    obtain ⟨t, r, hstep, hreset, hcfg, hpending, hresponses⟩ := step_access s a rest hr hp hfirst
    obtain ⟨u, hrun, hempty, hreset', hcfg', hlen, later, hlater⟩ := ih t hreset hpending hrest
    refine ⟨u, (run_succ _ hstep).trans hrun, hempty, hreset', hcfg'.trans hcfg, ?_, r :: later, ?_⟩
    · rw [hlen, hresponses, List.length_append, List.length_cons, List.length_cons, List.length_nil]
      omega
    · rw [← hlater, hresponses, List.append_assoc, List.singleton_append]

theorem step_inpush_of_room (s : State) (y : Byte) (rest : List HostInput) (hr : s.resetLine = false)
    (hp : s.pending = .write 0x0050 4 (y.setWidth 32) :: rest) (hroom : s.input.length < s.cfg.inCap) :
    step s = .next { s with input := s.input ++ [y], pending := rest, responses := s.responses ++ [.ok] } := by
  rw [step_inpush s _ rest hp hr, (s.withPending rest).pushByte_of_room _ hroom]
  simp [State.respond, State.withPending]

/-- Settles O42, by induction on the bytes: each push finds room and appends its own (rule R20). -/
theorem pushesAccumulate : Obligations.PushesAccumulate := by
  intro s bs rest hr hp hroom
  induction bs generalizing s with
  | nil =>
    obtain rfl : s.pending = rest := hp
    simp [Host.Core.run]
  | cons y bs ih =>
    rw [List.length_cons] at hroom
    have hstep := step_inpush_of_room s y (pushes bs ++ rest) hr hp (by omega)
    have hlen : (s.input ++ [y]).length + bs.length ≤ s.cfg.inCap := by
      rw [List.length_append, List.length_singleton]
      omega
    have hrun := ih { s with
      input := s.input ++ [y], pending := pushes bs ++ rest, responses := s.responses ++ [.ok] } hr rfl hlen
    refine (run_succ bs.length hstep).trans (hrun.trans ?_)
    simp [List.replicate_succ]

end Sys2Proof.Machine

/-! What a command reads and what it leaves to be read: which registers the result of a command depends on (10_state.md
rules R16, R18, 20_memory.md rule R35), and its frame through the host's reads (30_encoding.md rule R52, "Writes"). -/

namespace Sys2Proof.Machine

open Spec (opcode)

/-! ### What a command reads -/

/-- The states `t` and `u` left by runs from `s` and from `s` with another `OUT` and STATUS differ at most in an `OUT`
or a STATUS that each run kept, and in IOV, which is no result flag. -/
def AgreeButKept (s : State) (o : Bytes) (f : Status) (t u : State) : Prop :=
  u.bmp = t.bmp ∧ u.input = t.input ∧ (u.output = t.output ∨ (t.output = s.output ∧ u.output = o)) ∧
  ((t.status = s.status ∧ u.status = f) ∨ { u.status with iov := t.status.iov } = t.status)

theorem agreeButKept_output (s : State) (o : Bytes) (f : Status) (x : Bytes) (err f128 carr lm mt : Bool) :
    AgreeButKept s o f ((s.setOutput x).setResult err f128 carr lm mt)
      (({ s with output := o, status := f }.setOutput x).setResult err f128 carr lm mt) :=
  ⟨rfl, rfl, .inl rfl, .inr rfl⟩

theorem agreeButKept_bitmap (s : State) (o : Bytes) (f : Status) (b : Bitmap) (err f128 carr lm mt : Bool) :
    AgreeButKept s o f ((s.setBitmap b).setResult err f128 carr lm mt)
      (({ s with output := o, status := f }.setBitmap b).setResult err f128 carr lm mt) :=
  ⟨rfl, rfl, .inr ⟨rfl, rfl⟩, .inr rfl⟩

/-- Settles O54: an encoder writes its own `OUT`, a decoder keeps the old one, and every command but NOP writes its own
result flags. -/
theorem outputAndFlagsAreNeverRead : Obligations.OutputAndFlagsAreNeverRead := by
  intro i s o f
  cases i with
  | nop => exact ⟨_, _, rfl, rfl, rfl, rfl, .inr ⟨rfl, rfl⟩, .inl ⟨rfl, rfl⟩⟩
  | enc128 | enc64 | enctok | encleg | tokenize | scanc =>
    exact ⟨_, _, rfl, rfl, agreeButKept_output s o f _ _ _ _ _ _⟩
  | dec128 | dec64 | dectok | decauto | classify | line =>
    exact ⟨_, _, rfl, rfl, agreeButKept_bitmap s o f _ _ _ _ _ _⟩
  | clrin | illegal0E => exact ⟨_, _, rfl, rfl, rfl, rfl, .inr ⟨rfl, rfl⟩, .inr rfl⟩
  | srst => exact ⟨_, _, rfl, rfl, rfl, rfl, .inl rfl, .inr rfl⟩

/-- The result of a decode command does not depend on the old bitmap: it holds no row of it (rule R35). -/
theorem exec_with_bmp_of_decode {i : Instr} (hop : opcodeOf i ∈ [0x2, 0x4, 0x6, 0x9, 0xA, 0xC]) (s : State)
    (b : Bitmap) : exec i { s with bmp := b } = exec i s := by
  cases i with
  | dec128 | dec64 | dectok | decauto | classify | line => rfl
  | nop | enc128 | enc64 | enctok | encleg | tokenize | scanc | clrin | illegal0E | srst =>
    simp [opcodeOf, Laws.OpcodeField.fields] at hop

/-- Settles O55: the two results are one by `exec_with_bmp_of_decode`. -/
theorem decodeReplacesWholeBitmap : Obligations.DecodeReplacesWholeBitmap := by
  intro w s b hop
  rw [← opcodeOf_decode] at hop
  obtain ⟨t, ht, -⟩ := commandEffect_exec (decode w) s
  exact ⟨t, t, ht, (exec_with_bmp_of_decode hop s b).trans ht, rfl⟩

/-! ### What a read shows -/

/-- The register or buffer that a read looks at, by its address (20_memory.md rule R31). -/
theorem memRead_congr {s t : State} {addr : Nat} (size : Nat) (hbmp : addr < 0x0040 → t.bmp = s.bmp)
    (hstatus : addr = 0x0044 → t.status = s.status)
    (hinput : addr = 0x0048 ∨ (0x1000 ≤ addr ∧ addr ≤ 0x1FFF) → t.input = s.input)
    (houtput : addr = 0x004C ∨ (0x2000 ≤ addr ∧ addr ≤ 0x2FFF) → t.output = s.output) :
    t.memRead addr size = s.memRead addr size := by
  cases hrow : rowAddr? addr size with
  | some r =>
    obtain ⟨rfl, rfl⟩ := rowAddr?_some hrow
    rw [memRead_row, memRead_row, hbmp (by omega)]
  | none =>
    rw [memRead_of_none s hrow, memRead_of_none t hrow]
    split_ifs with h1 h2 h3 h4 h5
    · rw [hstatus h1.2]
    · rw [hinput (.inl h2.2)]
    · rw [houtput (.inl h3.2)]
    · rw [hinput (.inr (by omega))]
    · rw [houtput (.inr (by omega))]
    · rfl

/-! ### The frame of a command -/

theorem CommandEffect.bmp_eq {s t : State} {op : Nat} (h : CommandEffect s op t)
    (hop : op ∉ [0x2, 0x4, 0x6, 0x9, 0xA, 0xC, 0xF]) : t.bmp = s.bmp :=
  by_contra fun hne => hop (h.opcode_of_bmp_ne hne)

theorem CommandEffect.input_eq {s t : State} {op : Nat} (h : CommandEffect s op t) (hop : op ∉ [0xD, 0xF]) :
    t.input = s.input :=
  by_contra fun hne => hop (h.opcode_of_input_ne hne).1

theorem CommandEffect.output_eq {s t : State} {op : Nat} (h : CommandEffect s op t)
    (hop : op ∉ [0x1, 0x3, 0x5, 0x7, 0x8, 0xB, 0xF]) : t.output = s.output :=
  by_contra fun hne => hop (h.opcode_of_output_ne hne)

theorem CommandEffect.memRead_of_output {s t : State} {op : Nat} (h : CommandEffect s op t) {addr : Nat} (size : Nat)
    (hop : op ∈ [0x1, 0x3, 0x5, 0x7, 0x8, 0xB]) (hstatus : addr ≠ 0x0044) (hlen : addr ≠ 0x004C)
    (hwindow : ¬(0x2000 ≤ addr ∧ addr ≤ 0x2FFF)) : t.memRead addr size = s.memRead addr size := by
  have others : ∀ op ∈ [0x1, 0x3, 0x5, 0x7, 0x8, 0xB],
      op ∉ [0x2, 0x4, 0x6, 0x9, 0xA, 0xC, 0xF] ∧ op ∉ [0xD, 0xF] := by decide
  obtain ⟨hb, hi⟩ := others op hop
  exact memRead_congr size (fun _ => h.bmp_eq hb) (fun ha => absurd ha hstatus) (fun _ => h.input_eq hi)
    (fun ha => absurd ha (not_or.mpr ⟨hlen, hwindow⟩))

theorem CommandEffect.memRead_of_bitmap {s t : State} {op : Nat} (h : CommandEffect s op t) {addr : Nat} (size : Nat)
    (hop : op ∈ [0x2, 0x4, 0x6, 0x9, 0xA, 0xC]) (hrows : 0x0040 ≤ addr) (hstatus : addr ≠ 0x0044) :
    t.memRead addr size = s.memRead addr size := by
  have others : ∀ op ∈ [0x2, 0x4, 0x6, 0x9, 0xA, 0xC],
      op ∉ [0xD, 0xF] ∧ op ∉ [0x1, 0x3, 0x5, 0x7, 0x8, 0xB, 0xF] := by decide
  obtain ⟨hi, ho⟩ := others op hop
  exact memRead_congr size (fun ha => absurd ha (Nat.not_lt.mpr hrows)) (fun ha => absurd ha hstatus)
    (fun _ => h.input_eq hi) (fun _ => h.output_eq ho)

/-- Settles O56: per clause, the registers that the command leaves and the addresses that show the others. -/
theorem commandFrameThroughReads : Obligations.CommandFrameThroughReads := by
  intro w s t addr size h
  have heffect := commandEffect_of_exec h
  refine ⟨fun hop => ?nop, heffect.memRead_of_output size, heffect.memRead_of_bitmap size,
    fun hop hstatus hlen hwindow => ?clrin, fun hop hstatus => ?illegal⟩
  all_goals rw [hop] at heffect
  case nop => rw [heffect.eq_of_nop]
  case clrin =>
    exact memRead_congr size (fun _ => heffect.bmp_eq (by decide)) (fun ha => absurd ha hstatus)
      (fun ha => absurd ha (not_or.mpr ⟨hlen, hwindow⟩)) (fun _ => heffect.output_eq (by decide))
  case illegal =>
    exact memRead_congr size (fun _ => heffect.bmp_eq (by decide)) (fun ha => absurd ha hstatus)
      (fun _ => heffect.input_eq (by decide)) (fun _ => heffect.output_eq (by decide))

end Sys2Proof.Machine

/-! Frame128 and Frame64, both ways (41_frame128.md rules R95 to R97, 42_frame64.md rules R105, R106): what the decoder
reads from a frame that the encoder wrote. -/

namespace Sys2Proof.Machine

open Spec (place bitAt)

/-! ### A Frame128 read back -/

/-- Rule R96: with the encoder's SP every pixel is found, moved by RN within its group and inverted by IB. -/
theorem getLsbD_b128_f128 (b : Bitmap) (sp rn ib : Bool) (r : Fin 16) (g k : Nat) (hg : g < 8) (hk : k < 4) :
    (b128 (f128 b sp rn ib) sp)[r].getLsbD (4 * g + k) =
      (b[r].getLsbD (4 * g + if rn then 3 - k else k) ^^ ib) := by
  rw [isFrame128_b128 _ sp r g k hg hk, bitAt_f128 b sp rn ib r g k hg, decide_eq_true hk, Bool.true_and]

theorem b128_f128 (b : Bitmap) (sp : Bool) : b128 (f128 b sp false false) sp = b := by
  refine bitmap_ext fun r => row_ext_groups fun g hg k hk => ?_
  rw [getLsbD_b128_f128 b sp false false r g k hg hk, Bool.xor_false]
  rfl

/-- DEC128 after ENC128, as one state: the flags say that the frame had its 128 bytes. -/
theorem dec128_after_enc128 (sp rn ib zp sp' rn' ib' zp' : Bool) (s : State) : ∃ t u : State,
    exec (.enc128 sp rn ib zp) s = .next t ∧ exec (.dec128 sp' rn' ib' zp') { t with input := t.output } = .next u ∧
    u.bmp = b128 (f128 s.bmp sp rn ib) sp' ∧ u.status.lm = false := by
  refine ⟨_, _, rfl, rfl, ?_, ?_⟩
  · simp
  · simp [lmExact, length_f128]

/-- Settles O6: `b128_f128`. -/
theorem frame128RoundTrip : Obligations.Frame128RoundTrip := by
  intro sp zp rn' ib' zp' s
  obtain ⟨t, u, ht, hu, hbmp, hlm⟩ := dec128_after_enc128 sp false false zp sp rn' ib' zp' s
  exact ⟨t, u, ht, hu, hbmp.trans (b128_f128 s.bmp sp), hlm⟩

/-! ### RN and IB (rule R96) -/

/-- Group by group, a bitmap comes back exactly when the encoder's nibble transform leaves each of its nibbles. -/
theorem b128_f128_eq_iff (b : Bitmap) (sp rn ib : Bool) :
    b128 (f128 b sp rn ib) sp = b ↔ ∀ (r : Fin 16) (g : Nat), g < 8 → frameNibble rn ib (grp b[r] g) = grp b[r] g := by
  have pixel (r : Fin 16) (g k : Nat) (hg : g < 8) (hk : k < 4) :
      (b128 (f128 b sp rn ib) sp)[r].getLsbD (4 * g + k) = (frameNibble rn ib (grp b[r] g)).getLsbD k := by
    have hsrc : (if rn then 3 - k else k) < 4 := by split <;> omega
    rw [getLsbD_b128_f128 b sp rn ib r g k hg hk, getLsbD_frameNibble rn ib _ k hk, getLsbD_grp, decide_eq_true hsrc,
      Bool.true_and]
  constructor
  · intro hback r g hg
    apply BitVec.eq_of_getLsbD_eq
    intro k hk
    rw [← pixel r g k hg hk, hback, getLsbD_grp, decide_eq_true hk, Bool.true_and]
  · intro hfixed
    refine bitmap_ext fun r => row_ext_groups fun g hg k hk => ?_
    rw [pixel r g k hg hk, hfixed r g hg, getLsbD_grp, decide_eq_true hk, Bool.true_and]

theorem frameNibble_rn_eq_self_iff (n : Nib) : frameNibble true false n = n ↔ n.toNat ∈ [0x0, 0x6, 0x9, 0xF] := by
  revert n
  decide

theorem frameNibble_rn_ib_eq_self_iff (n : Nib) : frameNibble true true n = n ↔ n.toNat ∈ [0x3, 0x5, 0xA, 0xC] := by
  revert n
  decide

theorem b128_f128_ib (b : Bitmap) (sp : Bool) (r : Fin 16) :
    (b128 (f128 b sp false true) sp)[r] = b[r] ^^^ 0xFFFFFFFF := by
  refine row_ext_groups fun g hg k hk => ?_
  have hall : (0xFFFFFFFF : Row) = BitVec.allOnes 32 := rfl
  rw [getLsbD_b128_f128 b sp false true r g k hg hk, BitVec.getLsbD_xor, hall, BitVec.getLsbD_allOnes,
    decide_eq_true (by omega)]
  rfl

/-- An inverted row is another row. -/
theorem b128_f128_ib_ne (b : Bitmap) (sp : Bool) : b128 (f128 b sp false true) sp ≠ b := by
  intro hback
  have hpixel := getLsbD_b128_f128 b sp false true 0 0 0 (by decide) (by decide)
  rw [hback] at hpixel
  simp at hpixel

/-- Settles O7: the formula is `getLsbD_b128_f128`; the fixed points are those of the nibble transform. -/
theorem frame128ExportAsymmetry : Obligations.Frame128ExportAsymmetry := by
  intro sp rn ib zp rn' ib' zp' s
  obtain ⟨t, u, ht, hu, hbmp, -⟩ := dec128_after_enc128 sp rn ib zp sp rn' ib' zp' s
  refine ⟨t, u, ht, hu, ?_⟩
  rw [hbmp]
  refine ⟨fun r g k hg hk => getLsbD_b128_f128 s.bmp sp rn ib r g k hg hk, ?_, ?_, ?_, ?_⟩
  · rintro rfl rfl
    exact b128_f128_ib s.bmp sp
  · rintro rfl rfl
    exact b128_f128_ib_ne s.bmp sp
  · rintro rfl rfl
    simp only [b128_f128_eq_iff, frameNibble_rn_eq_self_iff, grp, toNat_extractLsb'_nibble]
  · rintro rfl rfl
    simp only [b128_f128_eq_iff, frameNibble_rn_ib_eq_self_iff, grp, toNat_extractLsb'_nibble]

/-! ### Two different values of SP (rule R97) -/

theorem place_not (sp : Bool) (g : Nat) (hg : g < 8) : place (!sp) g = place sp (place true g) := by
  have : ∀ sp : Bool, ∀ g < 8, place (!sp) g = place sp (place true g) := by decide
  exact this sp g hg

/-- Settles O8: a group is read from the place of the group beside it. -/
theorem mismatchedSwapExchangesGroups : Obligations.MismatchedSwapExchangesGroups := by
  intro sp zp rn' ib' zp' s
  obtain ⟨t, u, ht, hu, hbmp, -⟩ := dec128_after_enc128 sp false false zp (!sp) rn' ib' zp' s
  refine ⟨t, u, ht, hu, fun r g k hg hk => ?_⟩
  rw [hbmp, isFrame128_b128 _ (!sp) r g k hg hk, place_not sp g hg,
    bitAt_f128 s.bmp sp false false r _ k (place_lt true g hg), decide_eq_true hk, Bool.true_and, Bool.xor_false]
  rfl

/-! ### A Frame64 read back, and written back (rule R105) -/

theorem b64_f64 (b : Bitmap) : b64 (f64 b) = b := by
  refine bitmap_ext fun r => row_ext_bytes fun k hk i hi => ?_
  rw [isFrame64_b64 _ r k i hk hi, bitAt_f64 b r k i hk hi]

theorem extract_b64 (y : Bytes) (r : Fin 16) (k : Nat) (hk : k < 4) :
    (b64 y)[r].extractLsb' (8 * k) 8 = byteAt y (4 * r.val + k) := by
  apply BitVec.eq_of_getLsbD_eq
  intro i hi
  rw [BitVec.getLsbD_extractLsb', decide_eq_true hi, Bool.true_and, getLsbD_b64 y r k i hk hi]

/-- The bytes of the bitmap read are the 64 bytes it is read from, zeros where there are fewer. -/
theorem f64_b64 (y : Bytes) : f64 (b64 y) = fit y 64 := by
  apply List.ext_getElem
  · rw [length_f64, length_fit]
  · intro i h1 h2
    rw [length_f64] at h1
    rw [← byteAt_of_lt, ← byteAt_of_lt, byteAt_fit y 64 i h1]
    have hplace : 4 * (i / 4) + i % 4 = i := Nat.div_add_mod i 4
    have hbyte := byteAt_f64 (b64 y) ⟨i / 4, by omega⟩ (i % 4) (by omega)
    rw [extract_b64 y ⟨i / 4, by omega⟩ (i % 4) (by omega), hplace] at hbyte
    exact hbyte

/-- Settles O11: `b64_f64` one way, `f64_b64` the other. -/
theorem frame64RoundTripBothWays : Obligations.Frame64RoundTripBothWays := by
  constructor
  · intro sp rn ib zp sp' rn' ib' zp' s
    refine ⟨_, _, rfl, rfl, ?_, ?_⟩
    · simp [b64_f64]
    · simp [lmExact, length_f64]
  · intro sp rn ib zp sp' rn' ib' zp' s hlen
    refine ⟨_, _, rfl, rfl, ?_⟩
    simp [f64_b64, ← hlen, fit_eq_self]

end Sys2Proof.Machine

/-! The sixteen row writes of 42_frame64.md rule R106: a run of row writes in any order first, then the words of a
Frame64. -/

namespace Sys2Proof.Machine

/-! ### A run of row writes -/

/-- The bitmap after the rows of `rows` are set, one after the other, to what `f` gives them. -/
def setRows (f : Fin 16 → Row) (rows : List (Fin 16)) (b : Bitmap) : Bitmap :=
  rows.foldl (fun b r => b.set r.val (f r)) b

theorem setRows_row (f : Fin 16 → Row) (rows : List (Fin 16)) (b : Bitmap) (r : Fin 16) :
    (setRows f rows b)[r] = if r ∈ rows then f r else b[r] := by
  induction rows generalizing b with
  | nil => simp [setRows]
  | cons r' rows ih =>
    refine (ih (b.set r'.val (f r'))).trans ?_
    by_cases hrest : r ∈ rows
    · rw [if_pos hrest, if_pos (List.mem_cons_of_mem _ hrest)]
    by_cases hfirst : r = r'
    · subst hfirst
      simp [hrest]
    · have hne : r'.val ≠ r.val := fun he => hfirst (Fin.ext he.symm)
      simp [hrest, hfirst, Vector.getElem_set_ne _ _ hne]

/-- The host writes `f r` to `ROW[r]` for each of `rows`. -/
def rowWrites (f : Fin 16 → Row) (rows : List (Fin 16)) : List HostInput :=
  rows.map fun r => .write (4 * r.val) 4 (f r)

theorem run_rowWrites (f : Fin 16 → Row) (rows : List (Fin 16)) (rest : List HostInput) (s : State)
    (hr : s.resetLine = false) (hp : s.pending = rowWrites f rows ++ rest) :
    Host.Core.run Sys2Proof.core rows.length s = .next { s with
      bmp := setRows f rows s.bmp, pending := rest, responses := s.responses ++ List.replicate rows.length .ok } := by
  induction rows generalizing s with
  | nil =>
    obtain rfl : s.pending = rest := hp
    simp [Host.Core.run, setRows]
  | cons r rows ih =>
    have hstep := step_row_write s r (f r) (rowWrites f rows ++ rest) hp hr
    have hrun := ih (((s.withPending (rowWrites f rows ++ rest)).writeRow r (f r)).respond .ok) hr rfl
    refine (run_succ rows.length hstep).trans (hrun.trans ?_)
    simp [setRows, State.respond, State.writeRow, State.withPending, List.replicate_succ]

/-! ### The words of a Frame64 (rules R69, R103) -/

/-- Each byte is read back from the sum at its own place. -/
theorem ofNat_bytes_eq_rowval (b0 b1 b2 b3 : Byte) :
    BitVec.ofNat 32 (b0.toNat + 2 ^ 8 * b1.toNat + 2 ^ 16 * b2.toNat + 2 ^ 24 * b3.toNat) = rowval b0 b1 b2 b3 := by
  have h0 := b0.isLt
  have h1 := b1.isLt
  have h2 := b2.isLt
  have h3 := b3.isLt
  rw [← rowval_rowbytes (BitVec.ofNat 32 _)]
  congr 1
  all_goals
    apply BitVec.eq_of_toNat_eq
    simp only [BitVec.extractLsb'_toNat, BitVec.toNat_ofNat, Nat.shiftRight_eq_div_pow]
    omega

/-- Row `r` as the host computes it from the bytes of `y` is the row DEC64 reads. -/
theorem b64_row (y : Bytes) (r : Fin 16) :
    (b64 y)[r] = BitVec.ofNat 32 ((y.getD (4 * r.val) 0).toNat + 2 ^ 8 * (y.getD (4 * r.val + 1) 0).toNat
      + 2 ^ 16 * (y.getD (4 * r.val + 2) 0).toNat + 2 ^ 24 * (y.getD (4 * r.val + 3) 0).toNat) := by
  rw [ofNat_bytes_eq_rowval]
  simp only [b64, Fin.getElem_fin, Vector.getElem_ofFn]
  rw [byteAt_fit _ _ _ (by omega), byteAt_fit _ _ _ (by omega), byteAt_fit _ _ _ (by omega),
    byteAt_fit _ _ _ (by omega)]
  rfl

/-- Settles O12: the run is `run_rowWrites`, and all sixteen rows are those of `b64_row`. -/
theorem dec64EqualsSixteenRowWrites : Obligations.Dec64EqualsSixteenRowWrites := by
  intro sp rn ib zp s hr hp
  simp only [← b64_row] at hp
  have hrun := run_rowWrites (fun r => (b64 s.input)[r]) (List.finRange 16) [] s hr (by rw [hp, List.append_nil]; rfl)
  refine ⟨_, _, rfl, hrun, bitmap_ext fun r => ?_, rfl, rfl, rfl, rfl⟩
  rw [setRows_row, if_pos (List.mem_finRange r), State.setResult_bmp, State.setBitmap_bmp]

end Sys2Proof.Machine

/-! The texts read back (43_tokenline.md rule R115, 44_legacytext.md rule R122, 45_legacyhex.md rule R135,
46_linehandler.md rule R145): a TokenLine, cells of one or two characters, and a C initializer. -/

namespace Sys2Proof.Machine

/-! ### A TokenLine (rule R115) -/

theorem length_tokens_tokenc (b : Bitmap) (zp : Bool) : (tokens (tokenc b zp)).length = 16 := by
  rw [tokens_tokenc, List.length_map, Vector.length_toList]

theorem btok_tokenc (keep : TruncKeep) (b : Bitmap) (zp : Bool) : btok keep (tokenc b zp) = b := by
  refine bitmap_ext fun r => ?_
  have htoken : (tokens (tokenc b zp))[r.val]? = some (rowToken zp b[r]) := by
    rw [tokens_tokenc, List.getElem?_map, getElem?_toList, Option.map_some]
  rw [btok_of_token keep _ r _ htoken, strip_rowToken, tokenRow_rowToken]

/-- A token is one `"0"` or eight digits long. -/
theorem oddSized_rowToken (zp : Bool) (v : Row) : oddSized (rowToken zp v) = false := by
  by_cases h : v = 0 ∧ zp = false
  · rw [rowToken, if_pos h]
    rfl
  · have hlen : (rowToken zp v).length = 8 := by rw [length_rowToken, if_neg h]
    simp [oddSized, hlen]

theorem malformed_rowToken (zp : Bool) (v : Row) : malformed (rowToken zp v) = false := by
  rw [malformed, strip_rowToken, List.isEmpty_eq_false_iff]
  exact rowToken_ne_nil zp v

theorem mem_tokens_tokenc {b : Bitmap} {zp : Bool} {k : Bytes} (hk : k ∈ tokens (tokenc b zp)) :
    ∃ v, k = rowToken zp v := by
  rw [tokens_tokenc] at hk
  obtain ⟨v, -, rfl⟩ := List.mem_map.mp hk
  exact ⟨v, rfl⟩

theorem lmTokenLine_tokenc (b : Bitmap) (zp : Bool) : lmTokenLine (tokenc b zp) = false := by
  rw [lmTokenLine, length_tokens_tokenc, Bool.or_eq_false_iff, List.any_eq_false]
  refine ⟨rfl, fun k hk => ?_⟩
  obtain ⟨v, rfl⟩ := mem_tokens_tokenc (List.mem_of_mem_take hk)
  simp [strip_rowToken, oddSized_rowToken]

theorem mtText_tokenc (b : Bitmap) (zp : Bool) : mtText (tokenc b zp) = false := by
  rw [mtText, List.any_eq_false]
  intro k hk
  obtain ⟨v, rfl⟩ := mem_tokens_tokenc hk
  simp [malformed_rowToken]

/-- DECTOK looks at all sixteen tokens, so it counts a malformed one as the legacy tokenizer does. -/
theorem mtTokenLine_tokenc (b : Bitmap) (zp : Bool) : mtTokenLine (tokenc b zp) = false := by
  rw [mtTokenLine, List.take_of_length_le (length_tokens_tokenc b zp).le]
  exact mtText_tokenc b zp

/-- Settles O15: `btok_tokenc` with the two flags. -/
theorem tokenLineRoundTrip : Obligations.TokenLineRoundTrip := by
  intro sp rn ib zp sp' rn' ib' zp' s
  refine ⟨_, _, rfl, rfl, ?_, ?_, ?_⟩
  · simp [btok_tokenc]
  · simp [lmTokenLine_tokenc]
  · simp [mtTokenLine_tokenc]

/-! ### Cells (rule R135) -/

theorem mtText_append_ws (t u : Bytes) (w : Byte) (hw : isWs w = true) :
    mtText (t ++ w :: u) = (mtText t || mtText u) := by
  rw [mtText, tokens_append_ws t u w hw, List.any_append]
  rfl

theorem isWs_of_digits {u : Bytes} (hu : ∀ c ∈ u, ∃ n, c = hexdigit n) : ∀ c ∈ u, isWs c = false := by
  intro c hc
  obtain ⟨n, rfl⟩ := hu c hc
  exact isWs_hexdigit n

theorem strip_digits {u : Bytes} (hu : ∀ c ∈ u, ∃ n, c = hexdigit n) : strip u = u := by
  refine strip_of_hex u fun c hc => ?_
  obtain ⟨n, rfl⟩ := hu c hc
  exact isHex_hexdigit n

/-- A text of digits only is one token, or none if it is empty. -/
theorem tokz_digits {u : Bytes} (hu : ∀ c ∈ u, ∃ n, c = hexdigit n) : tokz u = pairs u := by
  rw [tokz_run u (isWs_of_digits hu), strip_digits hu]

theorem mtText_digits {u : Bytes} (hu : ∀ c ∈ u, ∃ n, c = hexdigit n) : mtText u = false := by
  by_cases hne : u = []
  · subst hne
    rfl
  · rw [mtText, tokens_run u hne (isWs_of_digits hu)]
    simp [malformed, strip_digits hu, hne]

theorem pairs_flatMap_hex2_append (l s : Bytes) : pairs (l.flatMap hex2 ++ s) = l ++ pairs s := by
  induction l with
  | nil => rfl
  | cons y l ih => rw [List.flatMap_cons, List.append_assoc, pairs_hex2_append, ih, List.cons_append]

theorem pairs_hexdigit (n : Nib) : pairs [hexdigit n] = [n.setWidth 8] := by
  simp [pairs, hexval?_hexdigit, pairNibs]

theorem setWidth_lowNibble {y : Byte} (h : y.toNat < 0x10) : (y.extractLsb' 0 4).setWidth 8 = y := by
  apply BitVec.eq_of_toNat_eq
  rw [BitVec.toNat_setWidth, BitVec.extractLsb'_toNat]
  omega

/-- The bytes `l` have been read as two digits each and no whitespace has ended their token yet; a cell below 0x10 adds
one digit and ends it, any other cell lengthens it. -/
theorem tokz_cells_from (l y : Bytes) :
    tokz (l.flatMap hex2 ++ y.flatMap cell) = l ++ y ∧ mtText (l.flatMap hex2 ++ y.flatMap cell) = false := by
  induction y generalizing l with
  | nil =>
    rw [List.flatMap_nil, List.append_nil, List.append_nil]
    exact ⟨(tokz_digits (mem_flatMap_hex2 l)).trans (pairs_flatMap_hex2 l), mtText_digits (mem_flatMap_hex2 l)⟩
  | cons y ys ih =>
    by_cases hy : y.toNat < 0x10
    · have htext : l.flatMap hex2 ++ (y :: ys).flatMap cell =
          (l.flatMap hex2 ++ [hexdigit (y.extractLsb' 0 4)]) ++ 0x20 :: ys.flatMap cell := by
        simp [cell, hy]
      have hdigits : ∀ c ∈ l.flatMap hex2 ++ [hexdigit (y.extractLsb' 0 4)], ∃ n, c = hexdigit n :=
        List.forall_mem_append.mpr ⟨mem_flatMap_hex2 l, by simp⟩
      obtain ⟨hbytes, hmt⟩ := ih []
      rw [List.flatMap_nil, List.nil_append] at hbytes hmt
      rw [htext, tokz_append_ws _ _ _ (by decide), mtText_append_ws _ _ _ (by decide), tokz_digits hdigits,
        mtText_digits hdigits, hbytes, hmt, pairs_flatMap_hex2_append, pairs_hexdigit, setWidth_lowNibble hy]
      simp
    · have htext : l.flatMap hex2 ++ (y :: ys).flatMap cell = (l ++ [y]).flatMap hex2 ++ ys.flatMap cell := by
        simp [cell, hy]
      obtain ⟨hbytes, hmt⟩ := ih (l ++ [y])
      rw [htext, hbytes]
      exact ⟨by simp, hmt⟩

theorem tokz_flatMap_cell (y : Bytes) : tokz (y.flatMap cell) = y := (tokz_cells_from [] y).1

theorem mtText_flatMap_cell (y : Bytes) : mtText (y.flatMap cell) = false := (tokz_cells_from [] y).2

/-- Settles O23: the case of `tokz_cells_from` in which no byte has been read yet. -/
theorem tokenizerInvertsCells : Obligations.TokenizerInvertsCells :=
  fun y => tokz_cells_from [] y

/-! ### Cells classified (rules R122, R135) -/

theorem auto_f64 (b : Bitmap) : auto (f64 b) = b := by
  rw [auto, length_f64, if_neg (by decide), b64_f64]

theorem auto_f128 (b : Bitmap) : auto (f128 b true false false) = b := by
  rw [auto, length_f128, if_pos (by decide), b128_f128]

theorem tokz_legc (b : Bitmap) : tokz (legc b) = f64 b := tokz_flatMap_cell (f64 b)

theorem mtText_legc (b : Bitmap) : mtText (legc b) = false := mtText_flatMap_cell (f64 b)

theorem x_not_mem_cell (y : Byte) : 0x78 ∉ cell y := by
  have hdigit (n : Nib) : ¬0x78#8 = hexdigit n := (hexdigit_ne_x n).symm
  unfold cell
  split
  · simp [hdigit]
  · simp [hex2, hdigit]

theorem carr_legc (strict : Bool) (b : Bitmap) : carr strict (legc b) = [] := by
  refine carr_without_x strict _ fun hmem => ?_
  obtain ⟨y, -, hy⟩ := List.mem_flatMap.mp hmem
  exact x_not_mem_cell y hy

theorem lineb_legc (strict : Bool) (b : Bitmap) : lineb strict (legc b) = f64 b := by
  rw [lineb_eq_ite, if_pos (carr_legc strict b), tokz_legc]

/-- Settles O17: without an `'x'` LINE takes the path of CLASSIFY, and both read the 64 bytes of the Frame64. -/
theorem legacyTextReadBack : Obligations.LegacyTextReadBack := by
  intro sp rn ib zp sp' rn' ib' zp' s
  refine ⟨_, _, _, rfl, rfl, rfl, ?_⟩
  simp [tokz_legc, lineb_legc, carr_legc, mtText_legc, auto_f64, length_f64, f128Auto, lmAuto]

/-- Settles O26: CLASSIFY tokenizes the cells back to the 128 bytes and undoes the pair-swap. -/
theorem classifyReadsSwappedFrame128Text : Obligations.ClassifyReadsSwappedFrame128Text := by
  intro zp sp' rn' ib' zp' s
  refine ⟨_, _, rfl, rfl, ?_⟩
  simp [tokz_flatMap_cell, mtText_flatMap_cell, auto_f128, length_f128, f128Auto, lmAuto]

/-! ### A C initializer (rule R145) -/

/-- A byte that is no `'0'` starts no literal. -/
theorem carr_cons_of_ne (strict : Bool) {a : Byte} (ha : a ≠ 0x30) (t : Bytes) :
    carr strict (a :: t) = carr strict t := by
  match t with
  | b :: c :: d :: rest => exact carr_of_not_isLiteral fun h => ha h.1
  | [] | [_] | [_, _] => rw [carr_of_short strict _ (by simp), carr_of_short strict _ (by simp)]

theorem carrMatch_hex2 (strict : Bool) (y : Byte) (rest : Bytes) :
    carrMatch strict 0x30 0x78 (hexdigit (y.extractLsb' 4 4)) (hexdigit (y.extractLsb' 0 4)) (0x2C :: rest) =
      some y := by
  have hguard : strict = false ∨ (0x2C :: rest : Bytes).head?.all (fun e => !isHex e) = true := .inr rfl
  rw [carrMatch, if_pos ⟨rfl, rfl, hguard⟩, hexval?_hexdigit, hexval?_hexdigit]
  exact congrArg some (append_nibbles y)

/-- The comma ends the literal and, like the space, starts none. -/
theorem carr_literal_append (strict : Bool) (y : Byte) (rest : Bytes) :
    carr strict ([0x30, 0x78] ++ hex2 y ++ [0x2C, 0x20] ++ rest) = y :: carr strict rest := by
  calc carr strict ([0x30, 0x78] ++ hex2 y ++ [0x2C, 0x20] ++ rest)
    _ = carr strict (0x30 :: 0x78 :: hexdigit (y.extractLsb' 4 4) :: hexdigit (y.extractLsb' 0 4) ::
          0x2C :: 0x20 :: rest) := rfl
    _ = y :: carr strict (0x2C :: 0x20 :: rest) := by rw [carr_cons, carrMatch_hex2]
    _ = y :: carr strict rest := by rw [carr_cons_of_ne strict (by decide), carr_cons_of_ne strict (by decide)]

/-- Settles O29, by induction on the bytes. -/
theorem cArraySearchReadsInitializer : Obligations.CArraySearchReadsInitializer := by
  intro strict y
  induction y with
  | nil => rfl
  | cons y ys ih => rw [List.flatMap_cons, carr_literal_append, ih]

end Sys2Proof.Machine

/-! CLASSIFY on a TokenLine (45_legacyhex.md rule R136). The legacy tokenizer reads the token `0` as one byte where the
Frame64 has four, so each zero row moves the rows behind it three bytes forward; that does no harm exactly when nothing
but zeros stands behind it. -/

namespace Sys2Proof.Machine

/-! ### The bytes the tokenizer reads from a TokenLine -/

/-- The tokenizer's bytes of the tokens of `rows`, written without ZP. -/
def shortBytes (rows : List Row) : Bytes := rows.flatMap fun v => pairs (rowToken false v)

theorem tokz_tokenc (b : Bitmap) (zp : Bool) :
    tokz (tokenc b zp) = b.toList.flatMap fun v => pairs (rowToken zp v) := by
  rw [tokz, tokens_tokenc, List.flatMap_map]
  simp only [strip_rowToken]

theorem pairs_rowToken_of_ne (zp : Bool) (v : Row) (h : ¬(v = 0 ∧ zp = false)) :
    pairs (rowToken zp v) = rowbytes v := by
  rw [rowToken_of_ne zp v h, pairs_flatMap_hex2]

theorem tokz_tokenc_zp (b : Bitmap) : tokz (tokenc b true) = f64 b := by
  have hrow (v : Row) : pairs (rowToken true v) = rowbytes v := pairs_rowToken_of_ne true v (by simp)
  simp only [tokz_tokenc, hrow]
  rfl

theorem shortBytes_cons_zero (rows : List Row) : shortBytes (0 :: rows) = 0 :: shortBytes rows := rfl

theorem shortBytes_cons_of_ne {v : Row} (hv : v ≠ 0) (rows : List Row) :
    shortBytes (v :: rows) = rowbytes v ++ shortBytes rows := by
  rw [shortBytes, List.flatMap_cons, pairs_rowToken_of_ne false v fun h => hv h.1]
  rfl

theorem length_shortBytes_le (rows : List Row) : (shortBytes rows).length ≤ 4 * rows.length := by
  induction rows with
  | nil => exact Nat.zero_le _
  | cons v rows ih =>
    rw [List.length_cons]
    by_cases hv : v = 0
    · subst hv
      rw [shortBytes_cons_zero, List.length_cons]
      omega
    · rw [shortBytes_cons_of_ne hv, List.length_append, length_rowbytes]
      omega

/-! ### When zeros at the end make up for the missing bytes -/

theorem row_eq_zero_of_rowbytes {v : Row} (h0 : v.extractLsb' 0 8 = 0) (h1 : v.extractLsb' 8 8 = 0)
    (h2 : v.extractLsb' 16 8 = 0) (h3 : v.extractLsb' 24 8 = 0) : v = 0 := by
  rw [← rowval_rowbytes v, h0, h1, h2, h3]
  rfl

/-- A row that meets itself three or more bytes further on, with zeros before, is zero. -/
theorem row_eq_zero_of_shift {v : Row} {j : Nat} {x y : Bytes}
    (h : rowbytes v ++ x = List.replicate (j + 3) 0 ++ (rowbytes v ++ y)) : v = 0 := by
  simp only [rowbytes, List.replicate_succ, List.cons_append, List.cons.injEq] at h
  obtain ⟨h0, h1, h2, h⟩ := h
  refine row_eq_zero_of_rowbytes h0 h1 h2 ?_
  cases j with
  | zero => exact (List.cons.inj h).1.trans h0
  | succ j => exact (List.cons.inj h).1

/-- Three or more bytes in front are never made up for, unless all the rows are zero: the first other row would meet
itself. -/
theorem all_zero_of_shift {rows : List Row} {j k : Nat}
    (h : shortBytes rows ++ List.replicate k 0 = List.replicate (j + 3) 0 ++ rows.flatMap rowbytes) :
    ∀ v ∈ rows, v = 0 := by
  induction rows generalizing j with
  | nil => simp
  | cons v rows ih =>
    have hv : v = 0 := by
      by_contra hv
      rw [shortBytes_cons_of_ne hv, List.append_assoc, List.flatMap_cons] at h
      exact hv (row_eq_zero_of_shift h)
    subst hv
    refine List.forall_mem_cons.mpr ⟨rfl, ih (j := j + 3) ?_⟩
    have hzero : rowbytes 0 = List.replicate 4 0 := rfl
    rw [shortBytes_cons_zero, List.flatMap_cons, hzero, ← List.append_assoc, ← List.replicate_add] at h
    exact (List.cons.inj h).2

/-- Both sides are nothing but zeros, and the left one is not the longer. -/
theorem exists_zeros_of_all_zero {rows : List Row} (h : ∀ v ∈ rows, v = 0) :
    ∃ k, shortBytes rows ++ List.replicate k 0 = rows.flatMap rowbytes := by
  have hshort : ∀ c ∈ shortBytes rows, c = 0 := by
    intro c hc
    obtain ⟨v, hv, hcv⟩ := List.mem_flatMap.mp hc
    rw [h v hv] at hcv
    exact List.mem_singleton.mp hcv
  have hfull : ∀ c ∈ rows.flatMap rowbytes, c = 0 := by
    intro c hc
    obtain ⟨v, hv, hcv⟩ := List.mem_flatMap.mp hc
    rw [h v hv] at hcv
    exact List.eq_of_mem_replicate (n := 4) hcv
  obtain ⟨n, hn⟩ : ∃ n, shortBytes rows = List.replicate n 0 := ⟨_, List.eq_replicate_of_mem hshort⟩
  have hle := length_shortBytes_le rows
  rw [hn, List.length_replicate] at hle
  refine ⟨4 * rows.length - n, ?_⟩
  rw [hn, ← List.replicate_add, Nat.add_sub_cancel' hle, List.eq_replicate_of_mem hfull,
    length_flatMap_const length_rowbytes]

theorem exists_zeros_iff (rows : List Row) :
    (∃ k, shortBytes rows ++ List.replicate k 0 = rows.flatMap rowbytes) ↔
      rows.Pairwise fun v w => v = 0 → w = 0 := by
  induction rows with
  | nil => simp [shortBytes]
  | cons v rows ih =>
    rw [List.pairwise_cons]
    by_cases hv : v = 0
    · subst hv
      constructor
      · rintro ⟨k, hk⟩
        have hzero : ∀ w ∈ rows, w = 0 := all_zero_of_shift (j := 0) (List.cons.inj hk).2
        exact ⟨fun w hw _ => hzero w hw, List.pairwise_of_forall_mem_list fun _ _ w hw _ => hzero w hw⟩
      · rintro ⟨hzero, -⟩
        exact exists_zeros_of_all_zero (List.forall_mem_cons.mpr ⟨rfl, fun w hw => hzero w hw rfl⟩)
    · simp only [shortBytes_cons_of_ne hv, List.flatMap_cons, List.append_assoc, List.append_right_inj, ih]
      exact ⟨fun hrest => ⟨fun _ _ h => absurd h hv, hrest⟩, And.right⟩

/-! ### The bitmap CLASSIFY reads -/

theorem byteAt_append_zeros (y : Bytes) (k i : Nat) : byteAt (y ++ List.replicate k 0) i = byteAt y i := by
  simp only [byteAt, List.getD_eq_getElem?_getD]
  by_cases hi : i < y.length
  · rw [List.getElem?_append_left hi]
  · rw [List.getElem?_append_right (Nat.not_lt.mp hi), List.getElem?_eq_none (Nat.not_lt.mp hi),
      List.getElem?_replicate]
    split <;> rfl

/-- `fit` puts zeros behind a sequence that is too short (rule R68). -/
theorem fit_append_zeros (y : Bytes) (k : Nat) : fit y (y.length + k) = y ++ List.replicate k 0 := by
  have hlen : y.length + k = (y ++ List.replicate k 0).length := by simp
  calc fit y (y.length + k) = fit (y ++ List.replicate k 0) (y.length + k) := by
        simp only [fit, funext (byteAt_append_zeros y k)]
    _ = y ++ List.replicate k 0 := by rw [hlen, fit_eq_self]

theorem b64_eq_iff (y : Bytes) (b : Bitmap) : b64 y = b ↔ fit y 64 = f64 b := by
  constructor
  · rintro rfl
    exact (f64_b64 y).symm
  · intro h
    rw [← b64_f64 (b64 y), f64_b64, h, b64_f64]

theorem b64_shortBytes_iff (b : Bitmap) :
    b64 (shortBytes b.toList) = b ↔ b.toList.Pairwise fun v w => v = 0 → w = 0 := by
  have hle := length_shortBytes_le b.toList
  rw [Vector.length_toList] at hle
  rw [b64_eq_iff, ← exists_zeros_iff]
  constructor
  · intro h
    refine ⟨64 - (shortBytes b.toList).length, ?_⟩
    rw [← fit_append_zeros, Nat.add_sub_cancel' hle, h, f64]
  · rintro ⟨k, hk⟩
    have hlen := congrArg List.length hk
    rw [← f64, length_f64, List.length_append, List.length_replicate] at hlen
    rw [← hlen, fit_append_zeros, hk, f64]

theorem auto_shortBytes (b : Bitmap) : auto (shortBytes b.toList) = b64 (shortBytes b.toList) := by
  have hle := length_shortBytes_le b.toList
  rw [Vector.length_toList] at hle
  rw [auto, if_neg (by omega)]

theorem pairwise_toList_iff (b : Bitmap) (P : Row → Row → Prop) :
    b.toList.Pairwise P ↔ ∀ r r' : Fin 16, r < r' → P b[r] b[r'] := by
  rw [List.pairwise_iff_getElem]
  constructor
  · intro h r r' hlt
    simpa using h r.val r'.val (by simp) (by simp) hlt
  · intro h i j hi hj hlt
    rw [Vector.length_toList] at hi hj
    simpa using h ⟨i, hi⟩ ⟨j, hj⟩ hlt

theorem auto_tokz_tokenc_iff (b : Bitmap) (zp : Bool) :
    auto (tokz (tokenc b zp)) = b ↔ zp = true ∨ ∀ r r' : Fin 16, r < r' → b[r] = 0 → b[r'] = 0 := by
  cases zp with
  | true => simp only [tokz_tokenc_zp, auto_f64, true_or]
  | false =>
    rw [tokz_tokenc, ← shortBytes, auto_shortBytes, b64_shortBytes_iff, pairwise_toList_iff]
    simp only [Bool.false_eq_true, false_or]

/-- Settles O27: DECTOK reads the bitmap itself, so the claim is `auto_tokz_tokenc_iff`. -/
theorem classifyOnTokenLineExactlyWhen : Obligations.ClassifyOnTokenLineExactlyWhen := by
  intro sp rn ib zp sp' rn' ib' zp' s
  refine ⟨_, _, _, rfl, rfl, rfl, ?_⟩
  simpa [btok_tokenc] using auto_tokz_tokenc_iff s.bmp zp

end Sys2Proof.Machine
